-- ==== Sys2Proof/Word.lean ====
section
/-! DEFINITION. The fixed-width words of the block (00_scope.md R6, R9): the widths the rules give, under the names
the other files use.  Frequencies, sample rates, delays and table indexes are naturals (R10) and have no type here. -/

namespace Sys2Proof

/-- `DATA_BITS` = 16: the value of one control register (R6, R41). -/
abbrev Word16 := BitVec 16

/-- `HZ_BITS` = 32: one operand or result latch, one third of a command or response word (R6, R60, R70). -/
abbrev Word32 := BitVec 32

/-- `ADDR_BITS` = 8: the address of one control register; a larger address cannot be expressed (R6, R41, R56). -/
abbrev Addr := BitVec 8

/-- A command word `cw`, presented whole on the command port (R60). -/
abbrev CmdWord := BitVec 96

/-- A response word `rw` (R70). -/
abbrev RespWord := BitVec 96

end Sys2Proof
end

