-- ==== Sys2Proof/Config.lean ====
section
/-! DEFINITION. What an instance of the block is built with and what its environment may answer: the parameters of
00_scope.md R6, the capability table `CAP` of R7, the configuration of one instance (10_state.md R28, R29), the
answers of RegisterAccess (20_memory.md R48, R50), and the two free values the spec leaves to the environment. -/

namespace Sys2Proof

/-- The numeric parameters of the block (R6), every one a field of the configuration.  The widths among them are
fields too, although the words and registers they describe have the types of Word.lean: `Machine.widthsWf` asks that
they agree (DESIGN CHOICE, assumption 24, safe). -/
structure Params where
  /-- `MCLK_HZ(CLK_12M)` in hertz -/
  mclkHz12M : Nat
  /-- `MCLK_HZ(CLK_12M288)` in hertz -/
  mclkHz12M288 : Nat
  /-- `HZ_BITS`: the width of every frequency and sample-rate operand -/
  hzBits : Nat
  /-- `N_MIN`: the least integer multiplier -/
  nMin : Nat
  /-- `N_MAX`: the greatest integer multiplier -/
  nMax : Nat
  /-- `K_BITS`: the width of the fractional remainder -/
  kBits : Nat
  /-- `N_BITS`: the width of the integer multiplier -/
  nBits : Nat
  /-- `VCO_SCALE` (R90 step 1) -/
  vcoScale : Nat
  /-- `FIXED_PLL_SIZE` (R90 step 4) -/
  fixedPllSize : Nat
  /-- `ROWS`: the number of rows of a divider table -/
  rows : Nat
  /-- `FALLBACK_ROW`: the row of an unrecognised sample rate (R113) -/
  fallbackRow : Nat
  /-- `TARGET_44K1` in hertz -/
  target44k1 : Nat
  /-- `TARGET_48K` in hertz -/
  target48k : Nat
  /-- `PLL_TARGET_FACTOR` (R133) -/
  pllTargetFactor : Nat
  /-- `DATA_BITS`: the width of every control-register value -/
  dataBits : Nat
  /-- `ADDR_BITS`: addresses are naturals below 2^`ADDR_BITS` -/
  addrBits : Nat
  deriving DecidableEq, Repr

/-- The values R6 gives the parameters for this hardware. -/
def thisHardware : Params where
  mclkHz12M := 12000000
  mclkHz12M288 := 12288000
  hzBits := 32
  nMin := 6
  nMax := 12
  kBits := 24
  nBits := 4
  vcoScale := 4
  fixedPllSize := 2 ^ 24 * 10
  rows := 11
  fallbackRow := 7
  target44k1 := 11289600
  target48k := 12288000
  pllTargetFactor := 2
  dataBits := 16
  addrBits := 8

/-- `MCLK_CLASS`: which master-clock frequency the instance was built for (R6, R28). -/
inductive MclkClass where
  | clk12M
  | clk12M288
  deriving DecidableEq, Repr, Inhabited

/-- The capability table `CAP` (R7), everything that differs between codec chips.  The source gives none of its
values, so it is a parameter: every field is data, and `Machine.capWf` is R7's well-formedness. -/
structure Cap where
  /-- register and value of the chip reset write -/
  addrReset : Addr
  resetValue : Word16
  /-- register of `pre_divide` and `integer_multiplier`, and the bits of it a merge keeps -/
  addrPllCtrl : Addr
  pllCtrlPreserve : Word16
  /-- registers of `fractional_remainder[23:16]` and `[15:0]` -/
  addrPllKHi : Addr
  addrPllKLo : Addr
  /-- register of the sysclk/DAC clock-divider code -/
  addrClock : Addr
  /-- `DIV_SLAVE[class][row]`, one list of eleven codes per class -/
  divSlave12M : List Word16
  divSlave12M288 : List Word16
  /-- `DIV_MASTER[class][row]` -/
  divMaster12M : List Word16
  divMaster12M288 : List Word16
  /-- the digital-interface-format register -/
  addrIface : Addr
  /-- `FMT_STD[s]` -/
  fmtStdI2S : Word16
  fmtStdLeftJustified : Word16
  fmtStdRightJustified : Word16
  fmtStdDspA : Word16
  fmtStdDspB : Word16
  /-- `FMT_POL[p]` -/
  fmtPolNormal : Word16
  fmtPolBothInverted : Word16
  fmtPolBitClockInverted : Word16
  fmtPolFrameInverted : Word16
  /-- set when the codec drives the clock -/
  fmtMs : Word16
  /-- `FMT_WIDTH[w]`; its keys are the set `VALID_WIDTHS` -/
  fmtWidth : List (Nat × Word16)
  /-- the three power domains -/
  addrPwrRef : Addr
  bitsPwrRef : Word16
  addrPwrDac : Addr
  bitsPwrDac : Word16
  addrPwrOut : Addr
  bitsPwrOut : Word16
  /-- the mute bit -/
  addrMute : Addr
  bitMute : Word16
  /-- settle delays in milliseconds -/
  tReset : Nat
  tPwr : Nat
  tMute : Nat
  tOutOff : Nat
  /-- `CODEC_RESET_IMAGE(a)` where it is not zero; every other address holds 0x0000 after the reset write -/
  resetImage : List (Addr × Word16)
  deriving DecidableEq, Repr

/-- The configuration of one instance: all the parameters of R6, that is the numeric ones, the master-clock class
sampled from its strap (R28) and `CAP` (R29).  It is carried in the machine's state only so that `step`, whose type is
fixed, can take it as its parameter; no command writes it (DESIGN CHOICE, assumption 1). -/
structure Config extends Params where
  mclkClass : MclkClass
  cap : Cap
  deriving DecidableEq, Repr

/-- What RegisterAccess answers to one register operation (R12, R48, R50; U6, U7).  An operation that does neither is
left out (R193, U12; DESIGN CHOICE, assumption 16, unsafe). -/
inductive BusAnswer where
  /-- The operation completes.  A read returns `v` when the answer is `some v` (an oracle answer, any value); with
  `none` it returns what the codec's register holds (the plain register file of R51; assumption 9).  A write ignores
  `v`. -/
  | completes (v : Option Word16)
  /-- The operation fails.  A failed write may nevertheless have changed registers (U7): `changed` lists them with
  the values they now hold; it is empty when nothing changed.  A failed read changes nothing (DEDUCED, assumption 8,
  unsafe). -/
  | fails (changed : List (Addr × Word16))
  deriving DecidableEq, Repr, Inhabited

/-- What the host presents to the block (R190: the command word and hardware reset are the only inputs besides the
answers of RegisterAccess). -/
inductive HostInput where
  /-- one command word on the command port (R60) -/
  | command (cw : CmdWord)
  /-- Device probe, with the level of the `MCLK_CLASS` strap (R210). It arrives at once when no command is in flight,
  and when the plan in flight has completed `after` steps when one is (R221, U13; DESIGN CHOICE, assumption 17, safe).
  -/
  | hardwareReset (strap : MclkClass) (after : Nat)
  deriving DecidableEq, Repr

/-- FREE VALUE (DESIGN CHOICE, assumption 4, safe): the answer of RegisterAccess to the n-th register operation since
reset, where the state's list of answers gives none. The environment chooses it (R12); nothing is known of it. -/
opaque Config.busAnswer : Nat → BusAnswer

/-- FREE VALUE (DESIGN CHOICE, assumption 5, safe): what codec register `a` holds after the `epoch`-th hardware reset
of the block and before anything is written to it (R39, R213, U13). -/
opaque Config.codecPowerOn : Nat → Addr → Word16

end Sys2Proof
end

