-- ==== Sys2Proof/Syntax.lean ====
section
/-! DEFINITION. The twelve commands (30_encoding.md R66), one constructor each, with the operands their format
carries (R62), and the enumerations the selector fields stand for (R64, R65). -/

namespace Sys2Proof

/-- The clock role of a request (R64). -/
inductive Role where
  /-- the controller drives the clock, the codec is clock slave -/
  | controllerIsMaster
  /-- the codec is clock master -/
  | controllerIsSlave
  deriving DecidableEq, Repr

/-- The interface standard (R65). -/
inductive InterfaceStd where
  | i2s
  | leftJustified
  | rightJustified
  | dspA
  | dspB
  deriving DecidableEq, Repr

/-- The clock polarity (R65). -/
inductive Polarity where
  | normal
  | bothInverted
  | bitClockInverted
  | frameInverted
  deriving DecidableEq, Repr

/-- A decoded command.  Frequencies, sample rates and the bit width are the unsigned numbers of their fields (R63);
`role`, `std` and `pol` are the selector codes as they stand, since a word with an unrecognised code is legal and is
rejected only by the command's own rule (R67). -/
inductive Instr where
  /-- SOLVE (R90): `source_hz`, `target_hz` -/
  | solve (sourceHz targetHz : Nat)
  /-- LOOKUP (R110): `sample_rate` -/
  | lookup (sampleRate : Nat)
  /-- NEGOTIATE (R170) -/
  | negotiate (role : BitVec 2)
  /-- INIT (R130) -/
  | init
  /-- CFGCLK (R132) -/
  | cfgclk (role : BitVec 2) (width : Nat) (duplex : Bool) (sampleRate : Nat)
  /-- CFGFMT (R137) -/
  | cfgfmt (role : BitVec 2) (width : Nat) (std pol : BitVec 3)
  /-- ACTIVATE (R141) -/
  | activate
  /-- MUTE (R144) -/
  | mute
  /-- UNMUTE (R146) -/
  | unmute
  /-- SHUTDOWN (R148) -/
  | shutdown
  /-- FAULT (R152) -/
  | fault
  /-- REMOVE (R154) -/
  | remove
  deriving DecidableEq, Repr

/-- The twelve assigned operation codes (R66). -/
inductive Opcode where
  | solve
  | lookup
  | negotiate
  | init
  | cfgclk
  | cfgfmt
  | activate
  | mute
  | unmute
  | shutdown
  | fault
  | remove
  deriving DecidableEq, Repr

/-- The six command formats (R62). -/
inductive Format where
  | z
  | s
  | l
  | n
  | c
  | f
  deriving DecidableEq, Repr

end Sys2Proof
end

