-- ==== Sys2Proof/WellFormed.lean ====
section
/-! DEFINITION. When a command can be encoded: each number fits the field that carries it (30_encoding.md R61, R63).
The selector codes always fit, their types being exactly as wide as their fields. -/

namespace Sys2Proof

/-- A frequency or sample rate fits `A` or `B`, 32 bits (R63). -/
def fitsHz (f : Nat) : Bool := f < 2 ^ 32

/-- A bit width fits the `width` field, 8 bits (R63). -/
def fitsWidth (w : Nat) : Bool := w < 2 ^ 8

/-- Every operand of the command fits its field. -/
def WellFormed : Instr → Bool
  | .solve sourceHz targetHz => fitsHz sourceHz && fitsHz targetHz
  | .lookup sampleRate => fitsHz sampleRate
  | .negotiate _ => true
  | .init => true
  | .cfgclk _ width _ sampleRate => fitsWidth width && fitsHz sampleRate
  | .cfgfmt _ width _ _ => fitsWidth width
  | .activate => true
  | .mute => true
  | .unmute => true
  | .shutdown => true
  | .fault => true
  | .remove => true

end Sys2Proof
end

