-- ==== Sys2Proof/Decode.lean ====
section
/-! DEFINITION. The command word (30_encoding.md R60 to R69): its fields, a total decoder that rejects by name, the
encoder, and the match and mask table of R69. -/

namespace Sys2Proof

/-- Why a command word is not a legal encoding (R67). -/
inductive DecodeError where
  /-- `op` is 0x0, 0xD, 0xE or 0xF -/
  | reservedOpcode
  /-- a bit that the command's format does not use is 1 -/
  | unusedBitSet
  deriving DecidableEq, Repr

/-! ### Fields (R61) -/

/-- `op` = cw[3:0] -/
def opField (cw : CmdWord) : BitVec 4 := cw.extractLsb' 0 4
/-- `role` = cw[5:4] -/
def roleField (cw : CmdWord) : BitVec 2 := cw.extractLsb' 4 2
/-- `width` = cw[13:6] -/
def widthField (cw : CmdWord) : BitVec 8 := cw.extractLsb' 6 8
/-- `std` = cw[16:14] -/
def stdField (cw : CmdWord) : BitVec 3 := cw.extractLsb' 14 3
/-- `pol` = cw[19:17] -/
def polField (cw : CmdWord) : BitVec 3 := cw.extractLsb' 17 3
/-- `duplex` = cw[20] -/
def duplexField (cw : CmdWord) : Bool := cw.getLsbD 20
/-- `A` = cw[63:32] -/
def aField (cw : CmdWord) : Word32 := cw.extractLsb' 32 32
/-- `B` = cw[95:64] -/
def bField (cw : CmdWord) : Word32 := cw.extractLsb' 64 32

/-! ### The opcode map (R66) -/

/-- The command an `op` value stands for; none for the four reserved values. -/
def opcodeOf (op : BitVec 4) : Option Opcode :=
  match op.toNat with
  | 0x1 => some .solve
  | 0x2 => some .lookup
  | 0x3 => some .negotiate
  | 0x4 => some .init
  | 0x5 => some .cfgclk
  | 0x6 => some .cfgfmt
  | 0x7 => some .activate
  | 0x8 => some .mute
  | 0x9 => some .unmute
  | 0xA => some .shutdown
  | 0xB => some .fault
  | 0xC => some .remove
  | _ => none

/-- The `op` value of a command. -/
def opcodeBits : Opcode → BitVec 4
  | .solve => 0x1
  | .lookup => 0x2
  | .negotiate => 0x3
  | .init => 0x4
  | .cfgclk => 0x5
  | .cfgfmt => 0x6
  | .activate => 0x7
  | .mute => 0x8
  | .unmute => 0x9
  | .shutdown => 0xA
  | .fault => 0xB
  | .remove => 0xC

/-- The format of a command (R62, R66). -/
def formatOf : Opcode → Format
  | .solve => .s
  | .lookup => .l
  | .negotiate => .n
  | .cfgclk => .c
  | .cfgfmt => .f
  | .init => .z
  | .activate => .z
  | .mute => .z
  | .unmute => .z
  | .shutdown => .z
  | .fault => .z
  | .remove => .z

/-- The bits a format uses, those of `op` among them (R61, R62). -/
def usedBits : Format → CmdWord
  | .z => 0x00000000_00000000_0000000F
  | .s => 0xFFFFFFFF_FFFFFFFF_0000000F
  | .l => 0x00000000_FFFFFFFF_0000000F
  | .n => 0x00000000_00000000_0000003F
  | .c => 0x00000000_FFFFFFFF_00103FFF
  | .f => 0x00000000_00000000_000FFFFF

/-! ### Decoding -/

/-- The operands of a command, taken from the fields as they stand (R63). -/
def operandsOf (op : Opcode) (cw : CmdWord) : Instr :=
  match op with
  | .solve => .solve (aField cw).toNat (bField cw).toNat
  | .lookup => .lookup (aField cw).toNat
  | .negotiate => .negotiate (roleField cw)
  | .init => .init
  | .cfgclk => .cfgclk (roleField cw) (widthField cw).toNat (duplexField cw) (aField cw).toNat
  | .cfgfmt => .cfgfmt (roleField cw) (widthField cw).toNat (stdField cw) (polField cw)
  | .activate => .activate
  | .mute => .mute
  | .unmute => .unmute
  | .shutdown => .shutdown
  | .fault => .fault
  | .remove => .remove

/-- Decode a command word (R67, R68): total, and every illegal word is rejected by name. -/
def decode (cw : CmdWord) : Except DecodeError Instr :=
  match opcodeOf (opField cw) with
  | none => .error .reservedOpcode
  | some op =>
    if cw &&& ~~~ usedBits (formatOf op) = 0 then .ok (operandsOf op cw) else .error .unusedBitSet

/-! ### Encoding -/

/-- A command word put together from its fields, the reserved bits cw[31:21] zero (R61). -/
def packWord (op : BitVec 4) (role : BitVec 2) (width : BitVec 8) (std pol : BitVec 3) (duplex : Bool)
    (a b : Word32) : CmdWord :=
  b ++ a ++ (0#11 ++ BitVec.ofBool duplex ++ pol ++ std ++ width ++ role ++ op)

/-- The command word of a command; unused fields are zero (R62). -/
def encode : Instr → CmdWord
  | .solve sourceHz targetHz =>
    packWord (opcodeBits .solve) 0 0 0 0 false (BitVec.ofNat 32 sourceHz) (BitVec.ofNat 32 targetHz)
  | .lookup sampleRate => packWord (opcodeBits .lookup) 0 0 0 0 false (BitVec.ofNat 32 sampleRate) 0
  | .negotiate role => packWord (opcodeBits .negotiate) role 0 0 0 false 0 0
  | .init => packWord (opcodeBits .init) 0 0 0 0 false 0 0
  | .cfgclk role width duplex sampleRate =>
    packWord (opcodeBits .cfgclk) role (BitVec.ofNat 8 width) 0 0 duplex (BitVec.ofNat 32 sampleRate) 0
  | .cfgfmt role width std pol => packWord (opcodeBits .cfgfmt) role (BitVec.ofNat 8 width) std pol false 0 0
  | .activate => packWord (opcodeBits .activate) 0 0 0 0 false 0 0
  | .mute => packWord (opcodeBits .mute) 0 0 0 0 false 0 0
  | .unmute => packWord (opcodeBits .unmute) 0 0 0 0 false 0 0
  | .shutdown => packWord (opcodeBits .shutdown) 0 0 0 0 false 0 0
  | .fault => packWord (opcodeBits .fault) 0 0 0 0 false 0 0
  | .remove => packWord (opcodeBits .remove) 0 0 0 0 false 0 0

/-- The operation code of a command. -/
def opcodeOfInstr : Instr → Opcode
  | .solve _ _ => .solve
  | .lookup _ => .lookup
  | .negotiate _ => .negotiate
  | .init => .init
  | .cfgclk _ _ _ _ => .cfgclk
  | .cfgfmt _ _ _ _ => .cfgfmt
  | .activate => .activate
  | .mute => .mute
  | .unmute => .unmute
  | .shutdown => .shutdown
  | .fault => .fault
  | .remove => .remove

/-! ### The match and mask table (R69) -/

/-- One row of the table of R69. -/
structure OpcodeRow where
  opcode : Opcode
  matchBits : CmdWord
  maskBits : CmdWord
  deriving DecidableEq, Repr

/-- A word belongs to a row when `cw & mask = match`. -/
def OpcodeRow.holds (r : OpcodeRow) (cw : CmdWord) : Bool := cw &&& r.maskBits = r.matchBits

/-- The row of R69 for a command. -/
def opcodeRow : Opcode → OpcodeRow
  | .solve => ⟨.solve, 0x00000000_00000000_00000001, 0x00000000_00000000_FFFFFFFF⟩
  | .lookup => ⟨.lookup, 0x00000000_00000000_00000002, 0xFFFFFFFF_00000000_FFFFFFFF⟩
  | .negotiate => ⟨.negotiate, 0x00000000_00000000_00000003, 0xFFFFFFFF_FFFFFFFF_FFFFFFCF⟩
  | .init => ⟨.init, 0x00000000_00000000_00000004, 0xFFFFFFFF_FFFFFFFF_FFFFFFFF⟩
  | .cfgclk => ⟨.cfgclk, 0x00000000_00000000_00000005, 0xFFFFFFFF_00000000_FFEFC00F⟩
  | .cfgfmt => ⟨.cfgfmt, 0x00000000_00000000_00000006, 0xFFFFFFFF_FFFFFFFF_FFF0000F⟩
  | .activate => ⟨.activate, 0x00000000_00000000_00000007, 0xFFFFFFFF_FFFFFFFF_FFFFFFFF⟩
  | .mute => ⟨.mute, 0x00000000_00000000_00000008, 0xFFFFFFFF_FFFFFFFF_FFFFFFFF⟩
  | .unmute => ⟨.unmute, 0x00000000_00000000_00000009, 0xFFFFFFFF_FFFFFFFF_FFFFFFFF⟩
  | .shutdown => ⟨.shutdown, 0x00000000_00000000_0000000A, 0xFFFFFFFF_FFFFFFFF_FFFFFFFF⟩
  | .fault => ⟨.fault, 0x00000000_00000000_0000000B, 0xFFFFFFFF_FFFFFFFF_FFFFFFFF⟩
  | .remove => ⟨.remove, 0x00000000_00000000_0000000C, 0xFFFFFFFF_FFFFFFFF_FFFFFFFF⟩

/-! ### The host's view of the decoder -/

/-- The command word whose low `nbits` bits are those of `w` and whose other bits are zero; none where `w` does not
fit a command word. -/
def tableWord (nbits w : Nat) : Option CmdWord :=
  let v := w % 2 ^ nbits
  if v < 2 ^ 96 then some (BitVec.ofNat 96 v) else none

/-- The instruction the decoder reads from a word given as the opcode table numbers its bits. -/
def decodeTableWord (nbits w : Nat) : Option Instr :=
  match tableWord nbits w with
  | none => none
  | some cw =>
    match decode cw with
    | .ok i => some i
    | .error _ => none

end Sys2Proof
end

