-- ==== Sys2Proof/Machine/CapTables.lean ====
section
/-! DEFINITION. Reading the capability table `CAP` (00_scope.md R7), its well-formedness, and the reference
configuration `CAP_REF` of R8. -/

namespace Sys2Proof.Machine

/-! ### Reading the table -/

/-- `MCLK_HZ(MCLK_CLASS)` of the instance (R6, R28). -/
def mclkHz (cfg : Config) : Nat :=
  match cfg.mclkClass with
  | .clk12M => cfg.mclkHz12M
  | .clk12M288 => cfg.mclkHz12M288

/-- `DIV_SLAVE[class]` (R7). -/
def divSlave (c : Cap) : MclkClass → List Word16
  | .clk12M => c.divSlave12M
  | .clk12M288 => c.divSlave12M288

/-- `DIV_MASTER[class]` (R7). -/
def divMaster (c : Cap) : MclkClass → List Word16
  | .clk12M => c.divMaster12M
  | .clk12M288 => c.divMaster12M288

/-- `FMT_STD[s]` (R7). -/
def fmtStd (c : Cap) : InterfaceStd → Word16
  | .i2s => c.fmtStdI2S
  | .leftJustified => c.fmtStdLeftJustified
  | .rightJustified => c.fmtStdRightJustified
  | .dspA => c.fmtStdDspA
  | .dspB => c.fmtStdDspB

/-- `FMT_POL[p]` (R7). -/
def fmtPol (c : Cap) : Polarity → Word16
  | .normal => c.fmtPolNormal
  | .bothInverted => c.fmtPolBothInverted
  | .bitClockInverted => c.fmtPolBitClockInverted
  | .frameInverted => c.fmtPolFrameInverted

/-- `FMT_WIDTH[w]`, none for a width outside `VALID_WIDTHS`, the set of its keys (R7; DEDUCED, assumption 23, safe). -/
def fmtWidthOf (c : Cap) (w : Nat) : Option Word16 := c.fmtWidth.lookup w

/-- `w` is in `VALID_WIDTHS` (R7). -/
def validWidth (c : Cap) (w : Nat) : Bool := (fmtWidthOf c w).isSome

/-- `CODEC_RESET_IMAGE(a)` (R7). -/
def codecResetImage (c : Cap) (a : Addr) : Word16 := (c.resetImage.lookup a).getD 0

/-- The ten addresses the block may issue (R30, R41). -/
def roleAddrs (c : Cap) : List Addr :=
  [c.addrReset, c.addrPllCtrl, c.addrPllKHi, c.addrPllKLo, c.addrClock, c.addrIface, c.addrPwrRef, c.addrPwrDac,
    c.addrPwrOut, c.addrMute]

/-! ### Well-formedness -/

/-- Exactly one bit is set. -/
def oneBit (v : Word16) : Bool := (List.range 16).any fun i => v = 1#16 <<< i

/-- No bit is set in both. -/
def disjoint (v w : Word16) : Bool := v &&& w = 0

/-- The positions, lowest first, of the bits a preserve mask does not keep (R102: "low bits first"). -/
def freeBits (pm : Word16) : List Nat := (List.range 16).filter fun i => !pm.getLsbD i

/-- The "one extra bit" that tells DSP_B from DSP_A (R7). -/
def dspExtra (c : Cap) : Word16 := c.fmtStdDspB &&& ~~~ c.fmtStdDspA

/-- Four distinct standard patterns; DSP_B is DSP_A and one extra bit that none of the four has (R7). -/
def stdPatternsWf (c : Cap) : Bool :=
  [c.fmtStdI2S, c.fmtStdLeftJustified, c.fmtStdRightJustified, c.fmtStdDspA].Nodup &&
  oneBit (dspExtra c) && (c.fmtStdDspB = c.fmtStdDspA ||| dspExtra c) &&
  disjoint (dspExtra c) c.fmtStdI2S && disjoint (dspExtra c) c.fmtStdLeftJustified &&
  disjoint (dspExtra c) c.fmtStdRightJustified && disjoint (dspExtra c) c.fmtStdDspA

/-- Four distinct polarity patterns (R7). -/
def polPatternsWf (c : Cap) : Bool :=
  [c.fmtPolNormal, c.fmtPolBothInverted, c.fmtPolBitClockInverted, c.fmtPolFrameInverted].Nodup

/-- The bits the standard selector uses, the extra bit among them. -/
def stdBits (c : Cap) : Word16 :=
  c.fmtStdI2S ||| c.fmtStdLeftJustified ||| c.fmtStdRightJustified ||| c.fmtStdDspA ||| c.fmtStdDspB

/-- The bits the polarity selector uses. -/
def polBits (c : Cap) : Word16 :=
  c.fmtPolNormal ||| c.fmtPolBothInverted ||| c.fmtPolBitClockInverted ||| c.fmtPolFrameInverted

/-- The bits the width selector uses. -/
def widthBits (c : Cap) : Word16 := c.fmtWidth.foldr (fun p acc => p.2 ||| acc) 0

/-- The four selectors use disjoint bits, and `FMT_MS` is one bit (R7). -/
def selectorsWf (c : Cap) : Bool :=
  oneBit c.fmtMs && disjoint (stdBits c) (polBits c) && disjoint (stdBits c) c.fmtMs &&
  disjoint (stdBits c) (widthBits c) && disjoint (polBits c) c.fmtMs && disjoint (polBits c) (widthBits c) &&
  disjoint c.fmtMs (widthBits c)

/-- `FMT_WIDTH` gives each valid width one pattern, and 16 bits none of its own (R7). -/
def fmtWidthsWf (c : Cap) : Bool := (c.fmtWidth.map Prod.fst).Nodup && ((fmtWidthOf c 16).getD 0 = 0)

/-- Two power domains that share an address have disjoint bit sets (R7). -/
def domainsApart (a b : Addr) (v w : Word16) : Bool := (a ≠ b) || disjoint v w

/-- The power and mute bit sets (R7).  R36 calls `BIT_MUTE` "one bit", and R7 types it a 16-bit mask and asks only that
it is not zero: any mask that is not zero is taken, of one bit or several (DESIGN CHOICE, assumption 12, safe). -/
def powerWf (c : Cap) : Bool :=
  (c.bitsPwrRef ≠ 0) && (c.bitsPwrDac ≠ 0) && (c.bitsPwrOut ≠ 0) && (c.bitMute ≠ 0) &&
  domainsApart c.addrPwrRef c.addrPwrDac c.bitsPwrRef c.bitsPwrDac &&
  domainsApart c.addrPwrRef c.addrPwrOut c.bitsPwrRef c.bitsPwrOut &&
  domainsApart c.addrPwrDac c.addrPwrOut c.bitsPwrDac c.bitsPwrOut

/-- The settle delays (R7). -/
def delaysWf (c : Cap) : Bool := (c.tMute < c.tOutOff) && (100 ≤ c.tReset) && (c.tReset < 1000)

/-- Each divider table has `ROWS` codes, and every row a lookup can answer is one of them: 0 to 10 of the row map and
`FALLBACK_ROW` (R6, R7, R111, R113). -/
def tablesWf (p : Params) (c : Cap) : Bool :=
  (c.divSlave12M.length = p.rows) && (c.divSlave12M288.length = p.rows) && (c.divMaster12M.length = p.rows) &&
  (c.divMaster12M288.length = p.rows) && (10 < p.rows) && (p.fallbackRow < p.rows)

/-- The widths of R6 are those of the words that carry the values: the operand latches (R61), the PLLDIV word and the
PLL registers (R73, R102), the 16-bit values and the addresses of `CAP` (R7) (DESIGN CHOICE, assumption 24, safe). -/
def widthsWf (p : Params) : Bool :=
  (p.hzBits = 32) && (p.nBits = 4) && (p.kBits = 24) && (p.dataBits = 16) && (p.addrBits = 8)

/-- Every address is below 2^`ADDR_BITS` (R7). -/
def addrsWf (p : Params) (c : Cap) : Bool := (roleAddrs c).all fun a => a.toNat < 2 ^ p.addrBits

/-- `PLL_CTRL_PRESERVE` leaves exactly the five bits `place` fills (R102). -/
def pllCtrlWf (c : Cap) : Bool := (freeBits c.pllCtrlPreserve).length = 5

/-- Well-formedness of an instance's `CAP` beside its parameters (R7, with R102's condition on `PLL_CTRL_PRESERVE`).
DEDUCED where R7 says it in its table and not in its list (assumption 12, safe). -/
def capWf (cfg : Config) : Bool :=
  widthsWf cfg.toParams && addrsWf cfg.toParams cfg.cap && stdPatternsWf cfg.cap && polPatternsWf cfg.cap &&
  selectorsWf cfg.cap && fmtWidthsWf cfg.cap && powerWf cfg.cap && delaysWf cfg.cap && tablesWf cfg.toParams cfg.cap &&
  pllCtrlWf cfg.cap

/-! ### The reference configuration -/

/-- Eleven placeholder codes `base + i` (R8). -/
def refCodes (base : Word16) : List Word16 := (List.range 11).map fun i => base + BitVec.ofNat 16 i

/-- `CAP_REF` (R8): the spec's own placeholder, of no real chip. -/
def capRef : Cap where
  addrReset := 0x00
  resetValue := 0x0000
  addrPllCtrl := 0x01
  pllCtrlPreserve := 0xFFE0
  addrPllKHi := 0x02
  addrPllKLo := 0x03
  addrClock := 0x04
  divSlave12M := refCodes 0x0100
  divSlave12M288 := refCodes 0x0200
  divMaster12M := refCodes 0x0300
  divMaster12M288 := refCodes 0x0400
  addrIface := 0x05
  fmtStdI2S := 0x0002
  fmtStdLeftJustified := 0x0001
  fmtStdRightJustified := 0x0000
  fmtStdDspA := 0x0003
  fmtStdDspB := 0x0023
  fmtPolNormal := 0x0000
  fmtPolBothInverted := 0x0090
  fmtPolBitClockInverted := 0x0080
  fmtPolFrameInverted := 0x0010
  fmtMs := 0x0040
  fmtWidth := [(16, 0x0000), (20, 0x0004), (24, 0x0008)]
  addrPwrRef := 0x06
  bitsPwrRef := 0x00C0
  addrPwrDac := 0x07
  bitsPwrDac := 0x0180
  addrPwrOut := 0x07
  bitsPwrOut := 0x0060
  addrMute := 0x08
  bitMute := 0x0008
  tReset := 200
  tPwr := 10
  tMute := 10
  tOutOff := 100
  resetImage := [(0x01, 0xABC8), (0x06, 0x0001), (0x07, 0x0200), (0x08, 0x0108)]

/-- An instance of this hardware with the given strap and capability table (R6). -/
def instanceOf (strap : MclkClass) (cap : Cap) : Config := { toParams := thisHardware, mclkClass := strap, cap }

end Sys2Proof.Machine
end

