-- ==== Sys2Proof/Machine/State.lean ====
section
/-! DEFINITION. The state of one PSQ instance and of the environment it talks to (10_state.md R20 to R39,
20_memory.md R38, R51), as plain data, and its value after hardware reset. -/

namespace Sys2Proof.Machine

/-- The sequencer state register's eight values (R21). -/
inductive SeqState where
  | reset
  | initialized
  | clockConfigured
  | formatConfigured
  | active
  | muted
  | shuttingDown
  | off
  deriving DecidableEq, Repr

/-- The outcome of a command, the `status` field of its response (R12, R180). -/
inductive Status where
  | ok
  | unsupportedRatio
  | invalidFormatSelector
  | busFailure
  | illegalTransition
  | illegalCommand
  deriving DecidableEq, Repr

/-- One step of a plan (R5, R45, R46, R55).  A replace write is one `write`; a merge write is a `read` followed by a
`writeMerged` that uses the value just read. -/
inductive PlanStep where
  /-- `MemWrite(a, 2, v)` -/
  | write (a : Addr) (v : Word16)
  /-- `t <- MemRead(a, 2)`, the first step of a merge -/
  | read (a : Addr)
  /-- `MemWrite(a, 2, (t & pm) | nb)`, the second step of a merge -/
  | writeMerged (a : Addr) (pm nb : Word16)
  /-- `Delay(t)`, in milliseconds -/
  | delay (ms : Nat)
  deriving DecidableEq, Repr

/-- A RegisterWrite value object (R45, R75). -/
inductive RegisterWrite where
  /-- `Replace(a, v)`: fully replaces a register -/
  | replace (a : Addr) (v : Word16)
  /-- `Merge(a, pm, nb)`: keeps the bits of the preserve mask -/
  | merge (a : Addr) (pm nb : Word16)
  deriving DecidableEq, Repr

/-- An element of a command's event trace (R58). -/
inductive Event where
  /-- a completed read and the value returned -/
  | rd (a : Addr) (v : Word16)
  /-- a completed write -/
  | wr (a : Addr) (v : Word16)
  /-- a settle delay, in milliseconds -/
  | dl (ms : Nat)
  /-- the operation at this plan index failed -/
  | fail (i : Nat)
  deriving DecidableEq, Repr

/-- A sequencer command in flight (R121 steps 5 to 7).  Its plan is fixed when it starts (R57); `State.seqPc` says
which step is next (R23).  The model's own field (DESIGN CHOICE, assumption 15). -/
structure Flight where
  /-- the whole plan -/
  plan : List PlanStep
  /-- the value of the last completed read, which a `writeMerged` uses (R46) -/
  t : Word16
  /-- the state `st` takes when the plan completes -/
  dest : SeqState
  deriving DecidableEq, Repr

/-- The codec's control registers `CR[a]` (R38, R51), the only address space the block reaches (R40).  A cell is one
16-bit register (R41).  An unlisted register reads as no value: nothing has written it since hardware reset, and it
holds what `Config.codecPowerOn` says for this epoch (DESIGN CHOICE, assumptions 5 and 7, safe). -/
structure Memory where
  /-- how many hardware resets have left the codec in any condition (R213) -/
  epoch : Nat
  /-- the registers of known content, addresses strictly rising -/
  cells : List (Nat × Word16)
  deriving DecidableEq, Repr

/-- The machine's state.  `st` and `seqPc` are all the architectural state there is (R20); the latches live for one
command (R25, R26; DESIGN CHOICE between commands, assumption 14); the rest is the command in flight, the ports, the
configuration and the environment, the model's own fields (assumption 15).  One state is one instance (R197; assumption
22). -/
structure State where
  /-- the sequencer state register `st` (R21) -/
  st : SeqState
  /-- the plan-step counter `seq_pc` (R23) -/
  seqPc : BitVec 8
  /-- the operand latches `x[op]` to `x[B]`: the command word, from its arrival to the command's end (R25) -/
  operands : Option CmdWord
  /-- the result latches `x[R0]`, `x[R1]` (R26) -/
  r0 : Word32
  r1 : Word32
  /-- the sequencer command in flight, none between commands (R52) -/
  flight : Option Flight
  /-- the response port: the response word of the last command, none while one is in flight (R70) -/
  response : Option RespWord
  /-- the event trace of the command in flight or, when none is, of the last command (R58) -/
  trace : List Event
  /-- the configuration of the instance, which no command writes (R28, R29) -/
  cfg : Config
  /-- what the host will present, oldest first (R5, R190) -/
  inputs : List HostInput
  /-- what RegisterAccess will answer to the next register operations, oldest first (R12) -/
  answers : List BusAnswer
  /-- how many register operations have been issued since reset -/
  busOps : Nat
  /-- the codec's registers (R38) -/
  codec : Memory
  deriving DecidableEq, Repr

/-- What stops the machine with a fault: nothing.  Every error of the spec ends its command with a status and leaves
the block ready for the next one (R12, R180); "there is no double-fault condition and no error that stops the block"
(R192).  The type has no constructor, so no step can raise a fault; that is safe. -/
inductive Fault where
  deriving DecidableEq, Repr

/-- Why the model gives a step no meaning. -/
inductive Refusal where
  /-- An instruction without a meaning; no arm of `exec` raises it.  Safe. -/
  | notModelled (mnemonic : String)
  /-- Raised by every meaning when a command is presented while another is in flight, whose behaviour is undefined
  (R220, U5: `refuse`).  `step` never presents one.  Safe. -/
  | commandInFlight
  /-- Raised when a non-empty plan would be built from a `CAP` that is not well formed beside the instance's
  parameters (R47, U9: `refuse`; assumptions 12 and 24).  Safe. -/
  | illFormedCap
  deriving DecidableEq, Repr

/-- What a step answers. -/
abbrev Result := Host.Outcome State Fault Refusal

/-- The state after hardware reset of an instance with the given configuration (R39, R210): `st` Reset, `seq_pc` 0,
no latch holding a value, the codec's registers unspecified. -/
def State.resetWith (cfg : Config) : State where
  st := .reset
  seqPc := 0
  operands := none
  r0 := 0
  r1 := 0
  flight := none
  response := none
  trace := []
  cfg := cfg
  inputs := []
  answers := []
  busOps := 0
  codec := { epoch := 0, cells := [] }

/-- The state after hardware reset of the reference instance (R8), its strap at `CLK_12M` (DESIGN CHOICE, assumptions 1
and 2, unsafe). -/
def State.reset : State := State.resetWith (instanceOf .clk12M capRef)

end Sys2Proof.Machine
end

