-- ==== Sys2Proof/Machine/Operands.lean ====
section
/-! DEFINITION. The operand forms of the commands: what the selector codes stand for (30_encoding.md R64, R65), none
for a code the spec calls unrecognised. -/

namespace Sys2Proof.Machine

/-- `role` codes (R64). -/
def roleOf (code : BitVec 2) : Option Role :=
  match code.toNat with
  | 0 => some .controllerIsMaster
  | 1 => some .controllerIsSlave
  | _ => none

/-- `std` codes (R65). -/
def stdOf (code : BitVec 3) : Option InterfaceStd :=
  match code.toNat with
  | 0 => some .i2s
  | 1 => some .leftJustified
  | 2 => some .rightJustified
  | 3 => some .dspA
  | 4 => some .dspB
  | _ => none

/-- `pol` codes (R65). -/
def polOf (code : BitVec 3) : Option Polarity :=
  match code.toNat with
  | 0 => some .normal
  | 1 => some .bothInverted
  | 2 => some .bitClockInverted
  | 3 => some .frameInverted
  | _ => none

end Sys2Proof.Machine
end

