-- ==== Sys2Proof/Machine/Flags.lean ====
section
/-! DEFINITION. What this hardware has in place of flags (10_state.md R27): the status of a command, its numeric
codes, and the response word that carries it with `st`, `seq_pc` and the result latches. -/

namespace Sys2Proof.Machine

/-- The code of a sequencer state (R21). -/
def seqStateCode : SeqState → BitVec 3
  | .reset => 0
  | .initialized => 1
  | .clockConfigured => 2
  | .formatConfigured => 3
  | .active => 4
  | .muted => 5
  | .shuttingDown => 6
  | .off => 7

/-- The code of a status (R180). -/
def statusCode : Status → BitVec 3
  | .ok => 0
  | .unsupportedRatio => 1
  | .invalidFormatSelector => 2
  | .busFailure => 3
  | .illegalTransition => 4
  | .illegalCommand => 5

/-- The response word (R70): `R1`, `R0`, eighteen zero bits, `seq_pc`, `st`, `status`. -/
def responseWord (status : Status) (st : SeqState) (seqPc : BitVec 8) (r0 r1 : Word32) : RespWord :=
  r1 ++ r0 ++ (0#18 ++ seqPc ++ seqStateCode st ++ statusCode status)

end Sys2Proof.Machine
end

