-- ==== Sys2Proof/Machine/Ops.lean ====
section
/-! DEFINITION. The shared operations: the codec's registers, RegisterAccess (20_memory.md R43 to R58), the life of a
command from its arrival to its response (42_codec_sequencer.md R121), and the two ways a command ends early, the
status-only errors and the abort of a failed register operation (60_exceptions.md R188, R189). -/

namespace Sys2Proof.Machine

/-! ### The codec's control registers -/

/-- The cells have strictly rising addresses, from `lo` up, all below 2^`ADDR_BITS`. -/
def risingFrom (lo : Nat) : List (Nat × Word16) → Bool
  | [] => true
  | (a, _) :: rest => lo ≤ a && a < 256 && risingFrom (a + 1) rest

/-- The canonical form of the codec's registers, in which equal register contents are equal data. -/
def Memory.wf (m : Memory) : Bool := risingFrom 0 m.cells

/-- The value listed for an address. -/
def findCell (a : Nat) : List (Nat × Word16) → Option Word16
  | [] => none
  | (b, w) :: rest => if a = b then some w else findCell a rest

/-- List a value for an address, keeping the order. -/
def putCell (a : Nat) (v : Word16) : List (Nat × Word16) → List (Nat × Word16)
  | [] => [(a, v)]
  | (b, w) :: rest =>
    if a < b then (a, v) :: (b, w) :: rest
    else if a = b then (a, v) :: rest
    else (b, w) :: putCell a v rest

/-- The known content of one register, none where nothing has written it. -/
def Memory.read? (m : Memory) (a : Addr) : Option Word16 := findCell a.toNat m.cells

/-- What a register holds: its known content, or the content it had at hardware reset, a free value (R213). -/
def Memory.value (m : Memory) (a : Addr) : Word16 := (m.read? a).getD (Config.codecPowerOn m.epoch a)

/-- One register takes a value. -/
def Memory.write (m : Memory) (a : Addr) (v : Word16) : Memory := { m with cells := putCell a.toNat v m.cells }

/-- Registers take the values a failed write left in them (R48, U7). -/
def Memory.writeAll (m : Memory) : List (Addr × Word16) → Memory
  | [] => m
  | (a, v) :: rest => (m.write a v).writeAll rest

/-- Every register takes its content after the chip reset write, `CODEC_RESET_IMAGE(a)` (R51). -/
def Memory.chipReset (m : Memory) (c : Cap) : Memory :=
  { m with cells := (List.range 256).map fun a => (a, codecResetImage c (BitVec.ofNat 8 a)) }

/-- A completed `MemWrite(a, 2, v)` as the codec takes it (R51): the reset register resets the chip, any other
register stores the value (DESIGN CHOICE where the chip may do otherwise, assumptions 9 and 10, unsafe). -/
def Memory.take (m : Memory) (c : Cap) (a : Addr) (v : Word16) : Memory :=
  if a = c.addrReset then m.chipReset c else m.write a v

/-- The codec after hardware reset of the block: in any condition (R213, U13). -/
def Memory.unknown (m : Memory) : Memory := { epoch := m.epoch + 1, cells := [] }

/-! ### Register writes as plan steps -/

/-- The plan steps of a RegisterWrite: a replace is one, a merge is two (R45, R46). -/
def RegisterWrite.steps : RegisterWrite → List PlanStep
  | .replace a v => [.write a v]
  | .merge a pm nb => [.read a, .writeMerged a pm nb]

/-- Well-formedness of a merge: no new bit is a preserved bit (R47). -/
def RegisterWrite.wf : RegisterWrite → Bool
  | .replace _ _ => true
  | .merge _ pm nb => nb &&& pm = 0

/-- Setting the bit set `b` (R46). -/
def setBits (a : Addr) (b : Word16) : RegisterWrite := .merge a (~~~ b) b

/-- Clearing the bit set `b` (R46). -/
def clearBits (a : Addr) (b : Word16) : RegisterWrite := .merge a (~~~ b) 0

/-! ### RegisterAccess -/

/-- What RegisterAccess answers to the next register operation (R12): the next listed answer, or a free one. -/
def State.answer (s : State) : BusAnswer :=
  match s.answers with
  | a :: _ => a
  | [] => Config.busAnswer s.busOps

/-- A register operation has been issued and answered. -/
def State.answered (s : State) : State := { s with answers := s.answers.tail, busOps := s.busOps + 1 }

/-- Add an event to the trace (R58). -/
def State.log (e : Event) (s : State) : State := { s with trace := s.trace ++ [e] }

/-- The value a completed read returns (R50): the environment's, or the register's under R51. -/
def returned (v : Option Word16) (m : Memory) (a : Addr) : Word16 := v.getD (m.value a)

/-- `MemRead(a, 2)`: the value, or none when it fails (R43, R48). -/
def memRead (a : Addr) (s : State) : Option Word16 × State :=
  match s.answer with
  | .completes v => (some (returned v s.codec a), s.answered.log (.rd a (returned v s.codec a)))
  | .fails _ => (none, s.answered)

/-- `MemWrite(a, 2, v)`: whether it completed (R43, R48). -/
def memWrite (a : Addr) (v : Word16) (s : State) : Bool × State :=
  match s.answer with
  | .completes _ => (true, { s.answered with codec := s.codec.take s.cfg.cap a v }.log (.wr a v))
  | .fails changed => (false, { s.answered with codec := s.codec.writeAll changed })

/-! ### The life of a command -/

/-- The arrival of a command: both result latches at zero (R26), no response yet, an empty trace. -/
def State.startCommand (s : State) : State := { s with r0 := 0, r1 := 0, response := none, trace := [] }

/-- The end of a command: its response word is returned and its latches hold nothing any more (R25, R26, R70). -/
def State.endCommand (status : Status) (s : State) : State :=
  { s with response := some (responseWord status s.st s.seqPc s.r0 s.r1), operands := none, r0 := 0, r1 := 0,
           flight := none }

/-- `return OK` with the given result latches. -/
def returnOk (r0 r1 : Word32) (s : State) : State := { s with r0, r1 }.endCommand .ok

/-- `raise E`, TAKING AN ERROR, the one operation every error ends in: the result latches are zero, the status goes
out in the response word, and neither `st` nor `seq_pc` is written here (R11, R189). -/
def raise (e : Status) (s : State) : State := { s with r0 := 0, r1 := 0 }.endCommand e

/-- The abort rule (R188): the failed step's index stays in `seq_pc`, `st` goes to Reset, and the command ends with
BusFailure.  Nothing is undone and there is no return from it: the host starts again with INIT (R191). -/
def abort (s : State) : State := raise .busFailure ({ s with st := .reset }.log (.fail s.seqPc.toNat))

/-- A meaning runs on a block that is idle; a second command while one is in flight is undefined (R220, U5;
DESIGN CHOICE, assumption 11, safe). -/
def whenIdle (s : State) (meaning : State → Result) : Result :=
  match s.flight with
  | some _ => .refused .commandInFlight
  | none => meaning s.startCommand

/-- The last step of a sequencer command: `st <- To; return OK` (R121 step 7). -/
def complete (dest : SeqState) (s : State) : State := { s with st := dest }.endCommand .ok

/-- Start a plan (R121 step 5): `seq_pc <- 0`, `st` as it is during the plan.  An empty plan completes at once; a plan
built from a `CAP` that is not well formed has no meaning (R47, U9; assumption 12, safe). -/
def startPlan (during dest : SeqState) (plan : List PlanStep) (s : State) : Result :=
  let s := { s with seqPc := 0, st := during }
  if plan = [] then .next (complete dest s)
  else if capWf s.cfg then .next { s with flight := some { plan, t := 0, dest } }
  else .refused .illFormedCap

/-- A plan step has completed: `seq_pc <- seq_pc + 1`, and after the last one the command completes (R121 steps 6
and 7). -/
def stepDone (f : Flight) (s : State) : State :=
  let s := { s with seqPc := s.seqPc + 1, flight := some f }
  if s.seqPc.toNat < f.plan.length then s else complete f.dest s

/-- Perform one write of a plan. -/
def performWrite (f : Flight) (a : Addr) (v : Word16) (s : State) : State :=
  match memWrite a v s with
  | (true, s') => stepDone f s'
  | (false, s') => abort s'

/-- Perform one plan step (R121 step 6).  A settle delay is an event, without a clock (R55; assumption 18, safe). -/
def perform (f : Flight) (p : PlanStep) (s : State) : State :=
  match p with
  | .write a v => performWrite f a v s
  | .read a =>
    match memRead a s with
    | (some v, s') => stepDone { f with t := v } s'
    | (none, s') => abort s'
  | .writeMerged a pm nb => performWrite f a ((f.t &&& pm) ||| nb) s
  | .delay ms => stepDone f (s.log (.dl ms))

/-- The next plan step of the command in flight, the one `seq_pc` names (R23); a counter past the plan's end, which no
run reaches, completes the command (DESIGN CHOICE, assumption 13, safe). -/
def planStep (f : Flight) (s : State) : State :=
  match f.plan[s.seqPc.toNat]? with
  | some p => perform f p s
  | none => complete f.dest s

/-! ### Hardware reset and the command port -/

/-- The strap level of a hardware reset that arrives at this step, none when none does.  A reset may arrive between two
commands or between any two plan steps of a command (R221, U13). -/
def resetDue (s : State) : Option MclkClass :=
  match s.inputs with
  | .hardwareReset strap after :: _ =>
    match s.flight with
    | some _ => if after ≤ s.seqPc.toNat then some strap else none
    | none => some strap
  | .command _ :: _ => none
  | [] => none

/-- Hardware reset of the block, the device probe (R210): `st` Reset, `seq_pc` 0, `MCLK_CLASS` sampled from the strap;
a plan in flight is lost, no register operation is issued and the codec may be in any condition (R213, R221, U13).  The
spec is silent on the trace and the response of the last command, or of one the reset cuts short: both are discarded
(DESIGN CHOICE, assumption 15, unsafe if read as architectural state). -/
def hardwareReset (strap : MclkClass) (s : State) : State :=
  { s with
    st := .reset, seqPc := 0, operands := none, r0 := 0, r1 := 0, flight := none, response := none, trace := [],
    cfg := { s.cfg with mclkClass := strap }, codec := s.codec.unknown }

/-- A command word arrives on the command port: the operand latches take it (R25). -/
def accept (cw : CmdWord) (rest : List HostInput) (s : State) : State := { s with inputs := rest, operands := some cw }

/-- A word that is no legal encoding ends with IllegalCommand (R67, R185). -/
def rejectWord (s : State) : State := raise .illegalCommand s.startCommand

end Sys2Proof.Machine
end

