-- ==== Sys2Proof/Machine/Negotiator.lean ====
section
/-! DEFINITION. NEGOTIATE, the interface role negotiator (43_role_negotiator.md R170 to R172). -/

namespace Sys2Proof.Machine

/-- Which side of the link generates the clock. -/
inductive BusRole where
  | master
  | slave
  deriving DecidableEq, Repr

/-- `negotiate(configured_role)`: `(controller_role, codec_role)` (R170). -/
def negotiate : Role → BusRole × BusRole
  | .controllerIsMaster => (.master, .slave)
  | .controllerIsSlave => (.slave, .master)

/-- 1 = bus clock master, 0 = bus clock slave (R76). -/
def busRoleBit : BusRole → BitVec 1
  | .master => 1
  | .slave => 0

/-- The role pair as a result word: bit 0 the controller, bit 1 the codec (R76). -/
def rolePairWord (p : BusRole × BusRole) : Word32 := 0#30 ++ busRoleBit p.2 ++ busRoleBit p.1

/-- NEGOTIATE (R170); an unrecognised `role` is IllegalCommand. -/
def execNegotiate (role : BitVec 2) (s : State) : Result :=
  whenIdle s fun s =>
    match roleOf role with
    | some r => .next (returnOk (rolePairWord (negotiate r)) 0 s)
    | none => .next (raise .illegalCommand s)

end Sys2Proof.Machine
end

