-- ==== Sys2Proof/Machine/Dividers.lean ====
section
/-! DEFINITION. LOOKUP, the clock divider tables (41_divider_tables.md R110 to R116). -/

namespace Sys2Proof.Machine

/-- A DividerSelection (30_encoding.md R74). -/
structure DividerSelection where
  /-- `table_index`, 0 to 10 -/
  row : Nat
  /-- `target_internal_clock_hz` -/
  targetHz : Nat
  deriving DecidableEq, Repr

/-- `ROW`: the row of a recognised sample rate (R111). -/
def rowOf (sampleRate : Nat) : Option Nat :=
  match sampleRate with
  | 8000 => some 0
  | 11025 => some 1
  | 12000 => some 2
  | 16000 => some 3
  | 22050 => some 4
  | 24000 => some 5
  | 32000 => some 6
  | 44100 => some 7
  | 48000 => some 8
  | 88200 => some 9
  | 96000 => some 10
  | _ => none

/-- `TARGET`: a recognised rate belongs to the family whose target it divides (R112). -/
def targetOf (p : Params) (sampleRate : Nat) : Nat :=
  if p.target44k1 % sampleRate = 0 then p.target44k1 else p.target48k

/-- `lookup(sample_rate)` (R110): total, an unrecognised rate giving the whole result of 44,100 Hz (R113). -/
def lookup (p : Params) (sampleRate : Nat) : DividerSelection :=
  match rowOf sampleRate with
  | some i => ⟨i, targetOf p sampleRate⟩
  | none => ⟨p.fallbackRow, p.target44k1⟩

/-- LOOKUP (R110, R74). -/
def execLookup (sampleRate : Nat) (s : State) : Result :=
  whenIdle s fun s =>
    .next (returnOk ((BitVec.ofNat 4 (lookup s.cfg.toParams sampleRate).row).setWidth 32)
      (BitVec.ofNat 32 (lookup s.cfg.toParams sampleRate).targetHz) s)

/-- `divider_code(role, class, i)` (R114). -/
def dividerCode (c : Cap) (role : Role) (cls : MclkClass) (i : Nat) : Word16 :=
  match role with
  | .controllerIsMaster => (divSlave c cls).getD i 0
  | .controllerIsSlave => (divMaster c cls).getD i 0

end Sys2Proof.Machine
end

