-- ==== Sys2Proof/Machine/Solver.lean ====
section
/-! DEFINITION. SOLVE, the PLL factor solver, and the PLL's image in the codec's registers (40_pll_solver.md R90 to
R104). -/

namespace Sys2Proof.Machine

/-- A PLLDivision (30_encoding.md R73). -/
structure PllDivision where
  /-- the reference was halved -/
  preDivide : Bool
  /-- `integer_multiplier`, 6 to 12 -/
  n : BitVec 4
  /-- `fractional_remainder` -/
  k : BitVec 24
  deriving DecidableEq, Repr

/-- The exact decimal-scaled fraction `k10` (R90 step 4). -/
def pllK10 (p : Params) (m src : Nat) : Nat := m * p.fixedPllSize / src

/-- The rounded fraction `k25`, 0 to 2^24 (R90 step 4, R100). -/
def pllK25 (p : Params) (m src : Nat) : Nat := (pllK10 p m src + 5) / 10

/-- The PLLDivision of a quotient in range: `n` has `N_BITS` bits (R98), and the fraction keeps the low `K_BITS` bits of
the rounded one (R95). -/
def divisionOf (p : Params) (pre : Bool) (scaled src : Nat) : PllDivision where
  preDivide := pre
  n := BitVec.ofNat 4 (scaled / src % 2 ^ p.nBits)
  k := BitVec.ofNat 24 (pllK25 p (scaled % src) src % 2 ^ p.kBits)

/-- The range check and the fraction, with the effective source (R92, R93). -/
def divideBy (p : Params) (pre : Bool) (scaled src : Nat) : Option PllDivision :=
  if scaled / src < p.nMin ∨ p.nMax < scaled / src then none else some (divisionOf p pre scaled src)

/-- `solve(source_hz, target_hz)` (R90); none is UnsupportedRatio.  A zero divisor is UnsupportedRatio before any
division (R94), and the source is halved at most once, by the floor (R91). -/
def solve (p : Params) (sourceHz targetHz : Nat) : Option PllDivision :=
  let scaled := targetHz * p.vcoScale
  if sourceHz = 0 then none
  else if scaled / sourceHz < p.nMin then
    if sourceHz / 2 = 0 then none else divideBy p true scaled (sourceHz / 2)
  else divideBy p false scaled sourceHz

/-- The `PLLDIV` word (R73). -/
def pllDivWord (d : PllDivision) : Word32 := 0#3 ++ BitVec.ofBool d.preDivide ++ d.n ++ d.k

/-- SOLVE (R90). -/
def execSolve (sourceHz targetHz : Nat) (s : State) : Result :=
  whenIdle s fun s =>
    match solve s.cfg.toParams sourceHz targetHz with
    | some d => .next (returnOk (pllDivWord d) 0 s)
    | none => .next (raise .unsupportedRatio s)

/-! ### The PLL register image -/

/-- The bits given, put at the positions given, in order; every other bit zero. -/
def placeBits : List Nat → List Bool → Word16
  | p :: ps, b :: bs => ((BitVec.ofBool b).setWidth 16 <<< p) ||| placeBits ps bs
  | _, _ => 0

/-- `n[0]` to `n[3]`, then `pre_divide` (R102). -/
def ctrlBits (d : PllDivision) : List Bool := [d.n.getLsbD 0, d.n.getLsbD 1, d.n.getLsbD 2, d.n.getLsbD 3, d.preDivide]

/-- `place(pre, n)`: the bits where `PLL_CTRL_PRESERVE` is 0, low bits first (R102). -/
def place (pm : Word16) (d : PllDivision) : Word16 := placeBits (freeBits pm) (ctrlBits d)

/-- The value of `ADDR_PLL_K_HI`: `zext_16(K[23:16])` (R32). -/
def kHi (d : PllDivision) : Word16 := (d.k.extractLsb' 16 8).setWidth 16

/-- The value of `ADDR_PLL_K_LO`: `K[15:0]` (R32). -/
def kLo (d : PllDivision) : Word16 := d.k.extractLsb' 0 16

/-- The register writes that program a PLLDivision, in order (R102). -/
def pllWrites (c : Cap) (d : PllDivision) : List RegisterWrite :=
  [.merge c.addrPllCtrl c.pllCtrlPreserve (place c.pllCtrlPreserve d), .replace c.addrPllKHi (kHi d),
    .replace c.addrPllKLo (kLo d)]

/-- `encode_pll(d)`: four plan steps (R102). -/
def encodePll (c : Cap) (d : PllDivision) : List PlanStep := (pllWrites c d).flatMap RegisterWrite.steps

/-- `decode_pll(c, hi, lo)` (R103), for any preserve mask that leaves five bits: the bits `place` filled, read back in
the same order; `hi[15:8]` and the preserved bits are ignored (DEDUCED for another mask than `CAP_REF`'s, assumption 19,
unsafe). -/
def decodePll (pm ctrl hi lo : Word16) : PllDivision :=
  let bit (i : Nat) : Bool := ctrl.getLsbD ((freeBits pm).getD i 16)
  { preDivide := bit 4
    n := BitVec.ofBool (bit 3) ++ BitVec.ofBool (bit 2) ++ BitVec.ofBool (bit 1) ++ BitVec.ofBool (bit 0)
    k := hi.extractLsb' 0 8 ++ lo }

end Sys2Proof.Machine
end

