-- ==== Sys2Proof/Machine/Sequencer.lean ====
section
/-! DEFINITION. The codec sequencer (42_codec_sequencer.md R120 to R154): the legality matrix, the plan of each of the
nine sequencer commands, and their meanings.  A meaning runs steps 1 to 5 of R121; the plan it starts is run by
`planStep`, one machine step per plan step (R5). -/

namespace Sys2Proof.Machine

/-- The nine sequencer commands. -/
inductive SeqCmd where
  | init
  | cfgclk
  | cfgfmt
  | activate
  | mute
  | unmute
  | shutdown
  | fault
  | remove
  deriving DecidableEq, Repr

/-- The legality matrix (R122). -/
def legal : SeqCmd → SeqState → Bool
  | .init, .reset => true
  | .cfgclk, .initialized => true
  | .cfgfmt, .clockConfigured => true
  | .activate, .formatConfigured => true
  | .mute, .active => true
  | .unmute, .muted => true
  | .shutdown, .active => true
  | .shutdown, .muted => true
  | .fault, _ => true
  | .remove, _ => true
  | _, _ => false

/-- R121 step 3: a command the state does not allow is IllegalTransition (R184). -/
def ifLegal (c : SeqCmd) (s : State) (k : State → Result) : Result :=
  if legal c s.st then k s else .next (raise .illegalTransition s)

/-! ### INIT -/

/-- The plan of INIT (R130). -/
def initPlan (c : Cap) : List PlanStep := (RegisterWrite.replace c.addrReset c.resetValue).steps ++ [.delay c.tReset]

/-- INIT (R130). -/
def execInit (s : State) : Result :=
  whenIdle s fun s => ifLegal .init s fun s => startPlan s.st .initialized (initPlan s.cfg.cap) s

/-! ### CFGCLK -/

/-- The PLL request of CFGCLK: `PLL_TARGET_FACTOR` times the target internal clock of the request's rate (R133). -/
def cfgclkSolve (cfg : Config) (sampleRate : Nat) : Option PllDivision :=
  solve cfg.toParams (mclkHz cfg) (cfg.pllTargetFactor * (lookup cfg.toParams sampleRate).targetHz)

/-- The divider write that ends CFGCLK's plan (R132). -/
def dividerWrite (cfg : Config) (role : Role) (sampleRate : Nat) : RegisterWrite :=
  .replace cfg.cap.addrClock (dividerCode cfg.cap role cfg.mclkClass (lookup cfg.toParams sampleRate).row)

/-- The plan of CFGCLK (R132 step 4); none is UnsupportedRatio.  Under the duplex guard the plan is empty (R134). -/
def cfgclkPlan (cfg : Config) (role : Role) (duplex : Bool) (sampleRate : Nat) : Option (List PlanStep) :=
  if duplex then some []
  else
    match role with
    | .controllerIsSlave =>
      match cfgclkSolve cfg sampleRate with
      | some d => some (encodePll cfg.cap d ++ (dividerWrite cfg .controllerIsSlave sampleRate).steps)
      | none => none
    | .controllerIsMaster => some (dividerWrite cfg .controllerIsMaster sampleRate).steps

/-- CFGCLK (R132).  The operand check comes before the state check (R121, R187). -/
def execCfgclk (role : BitVec 2) (width : Nat) (duplex : Bool) (sampleRate : Nat) (s : State) : Result :=
  whenIdle s fun s =>
    match roleOf role with
    | none => .next (raise .illegalCommand s)
    | some r =>
      if validWidth s.cfg.cap width then
        ifLegal .cfgclk s fun s =>
          match cfgclkPlan s.cfg r duplex sampleRate with
          | some plan => startPlan s.st .clockConfigured plan s
          | none => .next (raise .unsupportedRatio s)
      else .next (raise .illegalCommand s)

/-! ### CFGFMT -/

/-- The format value: the four selector patterns, OR-combined (R138). -/
def fmtValue (c : Cap) (role : Role) (std : InterfaceStd) (pol : Polarity) (widthPattern : Word16) : Word16 :=
  fmtStd c std ||| fmtPol c pol ||| (if role = .controllerIsSlave then c.fmtMs else 0) ||| widthPattern

/-- The validated format value of CFGFMT's operands; none where one selector is unrecognised (R139). -/
def cfgfmtValue (c : Cap) (role : BitVec 2) (width : Nat) (std pol : BitVec 3) : Option Word16 :=
  match roleOf role, stdOf std, polOf pol, fmtWidthOf c width with
  | some r, some i, some p, some w => some (fmtValue c r i p w)
  | _, _, _, _ => none

/-- CFGFMT (R137).  The state check comes before the validation (R187). -/
def execCfgfmt (role : BitVec 2) (width : Nat) (std pol : BitVec 3) (s : State) : Result :=
  whenIdle s fun s =>
    ifLegal .cfgfmt s fun s =>
      match cfgfmtValue s.cfg.cap role width std pol with
      | some v => startPlan s.st .formatConfigured (RegisterWrite.replace s.cfg.cap.addrIface v).steps s
      | none => .next (raise .invalidFormatSelector s)

/-! ### ACTIVATE -/

/-- The plan of ACTIVATE (R141): input references, DAC/output, output stage, each followed by a settle delay, then
unmute. -/
def activatePlan (c : Cap) : List PlanStep :=
  (setBits c.addrPwrRef c.bitsPwrRef).steps ++ [.delay c.tPwr] ++
  (setBits c.addrPwrDac c.bitsPwrDac).steps ++ [.delay c.tPwr] ++
  (setBits c.addrPwrOut c.bitsPwrOut).steps ++ [.delay c.tPwr] ++
  (clearBits c.addrMute c.bitMute).steps

/-- ACTIVATE (R141). -/
def execActivate (s : State) : Result :=
  whenIdle s fun s => ifLegal .activate s fun s => startPlan s.st .active (activatePlan s.cfg.cap) s

/-! ### MUTE and UNMUTE -/

/-- The plan of MUTE (R144). -/
def mutePlan (c : Cap) : List PlanStep := (setBits c.addrMute c.bitMute).steps

/-- MUTE (R144). -/
def execMute (s : State) : Result :=
  whenIdle s fun s => ifLegal .mute s fun s => startPlan s.st .muted (mutePlan s.cfg.cap) s

/-- The plan of UNMUTE (R146). -/
def unmutePlan (c : Cap) : List PlanStep := (clearBits c.addrMute c.bitMute).steps

/-- UNMUTE (R146). -/
def execUnmute (s : State) : Result :=
  whenIdle s fun s => ifLegal .unmute s fun s => startPlan s.st .active (unmutePlan s.cfg.cap) s

/-! ### SHUTDOWN -/

/-- The plan of SHUTDOWN (R148): mute, settle, output stage off, settle longer, then the remaining domains. -/
def shutdownPlan (c : Cap) : List PlanStep :=
  (setBits c.addrMute c.bitMute).steps ++ [.delay c.tMute] ++
  (clearBits c.addrPwrOut c.bitsPwrOut).steps ++ [.delay c.tOutOff] ++
  (clearBits c.addrPwrDac c.bitsPwrDac).steps ++
  (clearBits c.addrPwrRef c.bitsPwrRef).steps

/-- SHUTDOWN (R148): `st` is ShuttingDown from before the plan's first step (R150). -/
def execShutdown (s : State) : Result :=
  whenIdle s fun s => ifLegal .shutdown s fun s => startPlan .shuttingDown .off (shutdownPlan s.cfg.cap) s

/-! ### FAULT and REMOVE -/

/-- FAULT (R152): an empty plan, from any state to Reset. -/
def execFault (s : State) : Result :=
  whenIdle s fun s => ifLegal .fault s fun s => startPlan s.st .reset [] s

/-- REMOVE (R154): an empty plan, from any state to Off. -/
def execRemove (s : State) : Result :=
  whenIdle s fun s => ifLegal .remove s fun s => startPlan s.st .off [] s

end Sys2Proof.Machine
end

