-- ==== Sys2Proof/Machine/Dispatch.lean ====
section
/-! DEFINITION. One arm per command, each one direct call of its meaning. -/

namespace Sys2Proof.Machine

def exec (i : Instr) (s : State) : Host.Outcome State Fault Refusal :=
  match i with
  | .solve sourceHz targetHz => Sys2Proof.Machine.execSolve sourceHz targetHz s
  | .lookup sampleRate => Sys2Proof.Machine.execLookup sampleRate s
  | .negotiate role => Sys2Proof.Machine.execNegotiate role s
  | .init => Sys2Proof.Machine.execInit s
  | .cfgclk role width duplex sampleRate => Sys2Proof.Machine.execCfgclk role width duplex sampleRate s
  | .cfgfmt role width std pol => Sys2Proof.Machine.execCfgfmt role width std pol s
  | .activate => Sys2Proof.Machine.execActivate s
  | .mute => Sys2Proof.Machine.execMute s
  | .unmute => Sys2Proof.Machine.execUnmute s
  | .shutdown => Sys2Proof.Machine.execShutdown s
  | .fault => Sys2Proof.Machine.execFault s
  | .remove => Sys2Proof.Machine.execRemove s

end Sys2Proof.Machine
end

