-- ==== Sys2Proof/Machine/Step.lean ====
section
/-! DEFINITION. The machine's step (00_scope.md R5): one plan step of the command in flight, or, when none is, the next
thing the host presents. -/

namespace Sys2Proof.Machine

/-- What an idle block does when no reset arrives: it takes the command word presented, which is executed or rejected
(R67); with nothing presented it holds its state (R198). -/
def takeCommand (s : State) : Host.Outcome State Fault Refusal :=
  match s.inputs with
  | .command cw :: rest =>
    match decode cw with
    | .ok i => exec i (accept cw rest s)
    | .error _ => .next (rejectWord (accept cw rest s))
  | .hardwareReset _ _ :: _ => .next s
  | [] => .next s

/-- One step of the machine: a hardware reset that arrives (R210); or else one plan step of the command in flight; or,
when none is, the next command (DEDUCED, assumption 6). -/
def step (s : State) : Host.Outcome State Fault Refusal :=
  match resetDue s with
  | some strap => .next (hardwareReset strap { s with inputs := s.inputs.tail })
  | none =>
    match s.flight with
    | some f => .next (planStep f s)
    | none => takeCommand s

/-- The state in which the very next step takes this command word: no command is in flight and the host presents the
word first (DESIGN CHOICE, assumption 3, safe). -/
def State.withFetchWord (s : State) (nbits w : Nat) : State :=
  { s with flight := none, inputs := .command (BitVec.ofNat 96 (w % 2 ^ nbits)) :: s.inputs }

end Sys2Proof.Machine
end

