-- ==== Sys2Proof/Machine/Run.lean ====
section
/-! DEFINITION. A whole command as the steps it takes: `exec` starts it and `step` runs its plan to the end
(42_codec_sequencer.md R121). -/

namespace Sys2Proof.Machine

/-- At most `k` further steps of the command in flight; stops where it ends, so that no later command is taken. -/
def drain : Nat → State → Result
  | 0, s => .next s
  | k + 1, s =>
    match s.flight with
    | none => .next s
    | some _ =>
      match step s with
      | .next t => drain k t
      | .fault r => .fault r
      | .refused r => .refused r

/-- The length of the longest plan, ACTIVATE's (R23, R124). -/
abbrev longestPlan : Nat := 11

/-- A command from its start to its response: `exec`, then as many steps as the longest plan may take. -/
def runCommand (i : Instr) (s : State) : Result :=
  match exec i s with
  | .next t => drain longestPlan t
  | .fault r => .fault r
  | .refused r => .refused r

end Sys2Proof.Machine
end

