-- ==== Sys2Proof/Safety.lean ====
section
/-! DEFINITION. The terms the claims use: the environment's premises (00_scope.md R12, 20_memory.md R51), what a
command leaves when it ends, the invariant of the machine, and the order of a plan's operations. -/

namespace Sys2Proof.Machine

/-! ### Premises about the environment -/

/-- The numeric parameters are those R6 gives this hardware; `MCLK_CLASS` and `CAP` are any. -/
abbrev OnThisHardware (s : State) : Prop := s.cfg.toParams = thisHardware

/-- No command is in flight. -/
abbrev Idle (s : State) : Prop := s.flight = none

/-- The answer RegisterAccess will give to the n-th register operation from now, counting from 0. -/
def answerAt (s : State) (n : Nat) : BusAnswer := (s.answers[n]?).getD (Config.busAnswer (s.busOps + n))

/-- The operation completes. -/
def answerCompletes : BusAnswer → Bool
  | .completes _ => true
  | .fails _ => false

/-- The named premise "no bus operation fails" for the next `k` register operations (R12). -/
abbrev BusCompletes (k : Nat) (s : State) : Prop := ∀ n, n < k → answerCompletes (answerAt s n) = true

/-- The named premise "the codec is a plain register file" for the next `k` register operations (R51).  It asks that
each of them completes: R51 gives completed operations their effect and what a failed write leaves is R48's, so a run in
which one fails does not meet the premise (DESIGN CHOICE, assumption 9, safe). -/
abbrev PlainRegisterFile (k : Nat) (s : State) : Prop := ∀ n, n < k → answerAt s n = .completes none

/-- The host presents no hardware reset before its next command. -/
abbrev NoReset (s : State) : Prop := ∀ strap after rest, s.inputs ≠ .hardwareReset strap after :: rest

/-- What the n-th register operation from now returns when it is a completed read of `a`, the codec's registers being
`m` at that moment (R50). -/
def readValue (s : State) (n : Nat) (m : Memory) (a : Addr) : Word16 :=
  match answerAt s n with
  | .completes v => returned v m a
  | .fails _ => 0

/-! ### What a command leaves -/

/-- The codec's registers after the events of a trace (R51). -/
def codecAfter (c : Cap) (m : Memory) : List Event → Memory
  | [] => m
  | .wr a v :: es => codecAfter c (m.take c a v) es
  | .rd _ _ :: es => codecAfter c m es
  | .dl _ :: es => codecAfter c m es
  | .fail _ :: es => codecAfter c m es

/-- The state in which a sequencer command has passed its checks and its plan is about to run (R121 step 5): `seq_pc` 0,
`st` as it is during the plan, nothing else of the block or the codec changed but the ports. -/
def started (s : State) (during dest : SeqState) (plan : List PlanStep) : State :=
  { s with
    st := during, seqPc := 0, r0 := 0, r1 := 0, response := none, trace := [], flight := some { plan, t := 0, dest } }

/-- The state in which a command with result latches zero has ended: its status is out, `st` and `seq_pc` are as given,
`k` register operations were issued, and its trace is `tr`. -/
def ended (s : State) (status : Status) (st : SeqState) (seqPc : BitVec 8) (k : Nat) (tr : List Event) : State :=
  { s with
    st, seqPc, operands := none, r0 := 0, r1 := 0, flight := none,
    response := some (responseWord status st seqPc 0 0), trace := tr, answers := s.answers.drop k,
    busOps := s.busOps + k, codec := codecAfter s.cfg.cap s.codec tr }

/-- The state a status-only error leaves: no state written, no register operation issued (R189). -/
def rejected (s : State) (e : Status) : State :=
  { s with
    operands := none, r0 := 0, r1 := 0, flight := none, response := some (responseWord e s.st s.seqPc 0 0),
    trace := [] }

/-- The state a pure command leaves: its results in the response and nothing else (R123). -/
def answeredWith (s : State) (r0 r1 : Word32) : State :=
  { s with
    operands := none, r0 := 0, r1 := 0, flight := none, response := some (responseWord .ok s.st s.seqPc r0 r1),
    trace := [] }

/-- The register operations of a plan. -/
def countOps : List PlanStep → Nat
  | [] => 0
  | .delay _ :: ps => countOps ps
  | .write _ _ :: ps => countOps ps + 1
  | .read _ :: ps => countOps ps + 1
  | .writeMerged _ _ _ :: ps => countOps ps + 1

/-- The trace a plan leaves when every operation completes: `n` operations of state `s`'s environment are spent, `t` is
the value of the last read, `m` the codec's registers (R46, R50, R58). -/
def planEvents (s : State) (n : Nat) (t : Word16) (m : Memory) : List PlanStep → List Event
  | [] => []
  | .delay ms :: ps => .dl ms :: planEvents s n t m ps
  | .read a :: ps => .rd a (readValue s n m a) :: planEvents s (n + 1) (readValue s n m a) m ps
  | .write a v :: ps => .wr a v :: planEvents s (n + 1) t (m.take s.cfg.cap a v) ps
  | .writeMerged a pm nb :: ps =>
    .wr a ((t &&& pm) ||| nb) :: planEvents s (n + 1) t (m.take s.cfg.cap a ((t &&& pm) ||| nb)) ps

/-! ### Fields of the response word (R70) -/

/-- rw[2:0] -/
def respStatus (w : RespWord) : BitVec 3 := w.extractLsb' 0 3
/-- rw[5:3] -/
def respSt (w : RespWord) : BitVec 3 := w.extractLsb' 3 3
/-- rw[95:32], both result latches -/
def respResults (w : RespWord) : BitVec 64 := w.extractLsb' 32 64

/-! ### Plans -/

/-- The register a plan step reaches. -/
def stepAddr : PlanStep → Option Addr
  | .write a _ => some a
  | .read a => some a
  | .writeMerged a _ _ => some a
  | .delay _ => none

/-- A plan step that is a register operation, which can fail (R48). -/
def isRegisterOp (p : PlanStep) : Bool := (stepAddr p).isSome

/-- The register a plan step writes. -/
def writtenAddr : PlanStep → Option Addr
  | .write a _ => some a
  | .writeMerged a _ _ => some a
  | .read _ => none
  | .delay _ => none

/-- Every merged write follows the read of the same register, and its new bits are none of the preserved ones (R46,
R47); `last` is the register the step before read. -/
def mergesPaired (last : Option Addr) : List PlanStep → Bool
  | [] => true
  | .read a :: ps => mergesPaired (some a) ps
  | .writeMerged a pm nb :: ps => (last = some a) && (nb &&& pm = 0) && mergesPaired none ps
  | .write _ _ :: ps => mergesPaired none ps
  | .delay _ :: ps => mergesPaired none ps

/-- The plan reaches no register but the ten of `CAP` (R41), and its merges are well formed. -/
def planWf (c : Cap) (plan : List PlanStep) : Bool :=
  plan.all (fun p => (stepAddr p).all (roleAddrs c).contains) && mergesPaired none plan && plan.length ≤ longestPlan

/-- An event is what a plan step leaves in the trace when it completes. -/
def matchesStep : PlanStep → Event → Prop
  | .write a v, e => e = .wr a v
  | .read a, e => ∃ v, e = .rd a v
  | .writeMerged a pm nb, e => ∃ t, e = .wr a ((t &&& pm) ||| nb)
  | .delay ms, e => e = .dl ms

/-! ### The invariant -/

/-- `st` while a plan runs and the state it takes when the plan completes (R120). -/
def planMoves : SeqState → SeqState → Bool
  | .reset, .initialized => true
  | .initialized, .clockConfigured => true
  | .clockConfigured, .formatConfigured => true
  | .formatConfigured, .active => true
  | .active, .muted => true
  | .muted, .active => true
  | .shuttingDown, .off => true
  | _, _ => false

/-- Between commands: ShuttingDown is never seen (R150), the latches hold nothing (R25, R26), and the response that
stands carries the state the block is in (R70). -/
def idleOk (s : State) : Bool :=
  (s.st ≠ .shuttingDown) && (s.operands = none) && (s.r0 = 0) && (s.r1 = 0) &&
  s.response.all fun w => respSt w = seqStateCode s.st

/-- During a command: its plan is well formed, `seq_pc` names one of its steps, one event stands in the trace for each
completed step, no response is out, and `st` is the From state of a row of the table whose To state is to come. -/
def flightOk (s : State) (f : Flight) : Bool :=
  capWf s.cfg && planWf s.cfg.cap f.plan && (s.seqPc.toNat < f.plan.length) &&
  (s.trace.length = s.seqPc.toNat) && (s.response = none) && planMoves s.st f.dest && (s.r0 = 0) && (s.r1 = 0)

/-- The invariant of the machine. -/
def BlockInv (s : State) : Bool :=
  s.codec.wf && (s.seqPc.toNat ≤ longestPlan) &&
  match s.flight with
  | none => idleOk s
  | some f => flightOk s f

/-- The register operations and delays done so far are the first steps of the plan, in plan order (R53). -/
def InPlanOrder (s : State) : Prop :=
  ∀ f, s.flight = some f → List.Forall₂ matchesStep (f.plan.take s.seqPc.toNat) s.trace

end Sys2Proof.Machine
end

