-- ==== Sys2Proof/Certificates/Slice0/Obligations.lean ====
section
/-! DEFINITION. The statements for the provers.  Each cites the rules of spec/ it formalises in OBLIGATIONS.json. -/

open Sys2Proof Sys2Proof.Machine

/-! ### The command word -/

/-- Decoding an encoded well-formed command gives it back (R61, R62, R66). -/
def Obligations.DecodeOfEncodeIsTheCommand : Prop :=
  ∀ i : Instr, WellFormed i = true → decode (encode i) = .ok i

/-- A legal command word is the encoding of the one command it decodes to (R63, R67). -/
def Obligations.EncodeOfDecodeIsTheWord : Prop :=
  ∀ (cw : CmdWord) (i : Instr), decode cw = .ok i → WellFormed i = true ∧ encode i = cw

/-- R68: a word is the command of a row of the table exactly when `cw & mask = match`; at most one row matches; no
match means illegal. -/
def Obligations.DecodingIsTheMatchMaskTable : Prop :=
  ∀ cw : CmdWord,
    (∀ op, (opcodeRow op).holds cw = true ↔ ∃ i, decode cw = .ok i ∧ opcodeOfInstr i = op) ∧
    (∀ op op', (opcodeRow op).holds cw = true → (opcodeRow op').holds cw = true → op = op') ∧
    ((∀ op, (opcodeRow op).holds cw = false) ↔ ∃ e, decode cw = .error e)

/-- R67: the word is illegal exactly when its `op` is 0x0, 0xD, 0xE or 0xF, or a bit its format does not use is 1. -/
def Obligations.IllegalWordsAreReservedOpsAndUnusedBits : Prop :=
  ∀ cw : CmdWord,
    (decode cw = .error .reservedOpcode ↔ (opField cw).toNat ∈ [0x0, 0xD, 0xE, 0xF]) ∧
    (decode cw = .error .unusedBitSet ↔
      ∃ op, opField cw = opcodeBits op ∧ ∃ k, k < 96 ∧ cw.getLsbD k = true ∧ (usedBits (formatOf op)).getLsbD k = false)

/-- Words written out from R61 and R66 decode to the commands they stand for (R79). -/
def Obligations.WrittenWordsDecode : Prop :=
  decode 0x00000000_0000AC44_00000415 = .ok (.cfgclk 1 16 false 44100) ∧
  decode 0x00000000_00000000_00044606 = .ok (.cfgfmt 0 24 1 2) ∧
  decode 0x01588800_00B71B00_00000001 = .ok (.solve 12000000 22579200) ∧
  decode 0x00000000_0000BB80_00000002 = .ok (.lookup 48000) ∧
  decode 0x00000000_00000000_00000013 = .ok (.negotiate 1) ∧
  decode 0x00000000_00000000_0000000A = .ok .shutdown

/-! ### A step of the machine -/

/-- With no command in flight and a legal word presented, the step is `exec` of the decoded command, on the state whose
operand latches hold the word (R5, R25). -/
def Obligations.StepRunsTheDecodedCommand : Prop :=
  ∀ (s : State) (cw : CmdWord) (rest : List HostInput) (i : Instr),
    Idle s → s.inputs = .command cw :: rest → decode cw = .ok i →
    step s = exec i { s with inputs := rest, operands := some cw }

/-- R185: an illegal word, NEGOTIATE with `role` 2 or 3, and CFGCLK with `role` 2 or 3 or an unsupported width end with
IllegalCommand in every state, and nothing else is written (R67, R187). -/
def Obligations.IllegalCommandsChangeNothing : Prop :=
  ∀ s : State, Idle s →
    (∀ (cw : CmdWord) (rest : List HostInput), s.inputs = .command cw :: rest →
      (∀ op, (opcodeRow op).holds cw = false) → step s = .next { rejected s .illegalCommand with inputs := rest }) ∧
    (∀ role : BitVec 2, 2 ≤ role.toNat → exec (.negotiate role) s = .next (rejected s .illegalCommand)) ∧
    (∀ (role : BitVec 2) (width : Nat) (duplex : Bool) (rate : Nat),
      2 ≤ role.toNat ∨ validWidth s.cfg.cap width = false →
      exec (.cfgclk role width duplex rate) s = .next (rejected s .illegalCommand))

/-- With nothing presented the block is idle and holds its state (R198). -/
def Obligations.IdleBlockHoldsItsState : Prop :=
  ∀ s : State, Idle s → s.inputs = [] → step s = .next s

/-- Hardware reset (R210), between two commands or between two steps of a plan (R221; where in it is assumption 17):
`st` Reset, `seq_pc` 0, `MCLK_CLASS` from the strap and nothing else of the configuration, no register operation, the
operand and result latches empty (R39; 0 in the result latches is assumption 14), response and trace gone (assumption
15), and the codec's registers of unknown content (the model's reading of R213, assumption 5). -/
def Obligations.HardwareResetSamplesTheStrap : Prop :=
  ∀ (s : State) (strap : MclkClass) (after : Nat) (rest : List HostInput),
    s.inputs = .hardwareReset strap after :: rest → (s.flight ≠ none → after ≤ s.seqPc.toNat) →
    ∃ t, step s = .next t ∧ t.st = .reset ∧ t.seqPc = 0 ∧ t.operands = none ∧ t.r0 = 0 ∧ t.r1 = 0 ∧
      t.flight = none ∧ t.response = none ∧ t.trace = [] ∧ t.cfg = { s.cfg with mclkClass := strap } ∧
      t.answers = s.answers ∧ t.busOps = s.busOps ∧ t.inputs = rest ∧ ∀ a, t.codec.read? a = none

/-- A command presented while another is in flight has no meaning, whichever it is (R220, U5). -/
def Obligations.CommandInFlightIsRefused : Prop :=
  ∀ (i : Instr) (s : State) (f : Flight), s.flight = some f → exec i s = .refused .commandInFlight

/-- A legal command whose plan is not empty has no meaning under a `CAP` that is not well formed (R47, U9). -/
def Obligations.IllFormedCapIsRefused : Prop :=
  ∀ s : State, Idle s → capWf s.cfg = false →
    (s.st = .reset → exec .init s = .refused .illFormedCap) ∧
    (s.st = .formatConfigured → exec .activate s = .refused .illFormedCap) ∧
    (s.st = .active → exec .mute s = .refused .illFormedCap) ∧
    (s.st = .muted → exec .unmute s = .refused .illFormedCap) ∧
    (s.st = .active ∨ s.st = .muted → exec .shutdown s = .refused .illFormedCap) ∧
    (s.st = .initialized → ∀ role r width duplex rate plan, roleOf role = some r → validWidth s.cfg.cap width = true →
      cfgclkPlan s.cfg r duplex rate = some plan → plan ≠ [] →
      exec (.cfgclk role width duplex rate) s = .refused .illFormedCap) ∧
    (s.st = .clockConfigured → ∀ role width std pol, cfgfmtValue s.cfg.cap role width std pol ≠ none →
      exec (.cfgfmt role width std pol) s = .refused .illFormedCap)

/-- Under a well-formed `CAP` every step has a next state: no error stops the block (R192). -/
def Obligations.NoErrorStopsTheBlock : Prop :=
  ∀ s : State, capWf s.cfg = true → ∃ t, step s = .next t

/-- The configuration is never written, but for `MCLK_CLASS` at hardware reset (R28, R29). -/
def Obligations.ConfigurationIsConstant : Prop :=
  ∀ s t : State, step s = .next t →
    t.cfg = s.cfg ∨
      ∃ strap after rest, s.inputs = .hardwareReset strap after :: rest ∧ t.cfg = { s.cfg with mclkClass := strap }

/-! ### Plan steps -/

/-- R45: a replace write is one plan step, performs no read, and every bit of the register takes the bit of the value.
-/
def Obligations.ReplaceWriteStoresTheWholeValue : Prop :=
  (∀ (a : Addr) (v : Word16), (RegisterWrite.replace a v).steps = [.write a v]) ∧
  ∀ (s : State) (f : Flight) (a : Addr) (v : Word16) (o : Option Word16),
    s.flight = some f → f.plan[s.seqPc.toNat]? = some (.write a v) → resetDue s = none → answerAt s 0 = .completes o →
    ∃ t, step s = .next t ∧ t.trace = s.trace ++ [.wr a v] ∧ t.seqPc = s.seqPc + 1 ∧ t.busOps = s.busOps + 1 ∧
      (a ≠ s.cfg.cap.addrReset → t.codec.read? a = some v ∧ ∀ b, b ≠ a → t.codec.read? b = s.codec.read? b)

/-- R46: a merge is a read and then a write; bits of the register where the preserve mask is 1 keep the value just
read, and bits where it is 0 take the bit of the new bits; setting and clearing a bit set are the merges of R46. -/
def Obligations.MergeKeepsThePreservedBits : Prop :=
  (∀ (a : Addr) (pm nb : Word16), (RegisterWrite.merge a pm nb).steps = [.read a, .writeMerged a pm nb]) ∧
  (∀ (a : Addr) (b : Word16), setBits a b = .merge a (~~~ b) b ∧ clearBits a b = .merge a (~~~ b) 0) ∧
  ∀ (s : State) (f : Flight) (a : Addr) (pm nb : Word16) (o o' : Option Word16),
    s.flight = some f → f.plan[s.seqPc.toNat]? = some (.read a) →
    f.plan[s.seqPc.toNat + 1]? = some (.writeMerged a pm nb) → s.seqPc.toNat + 1 < 256 → NoReset s →
    answerAt s 0 = .completes o → answerAt s 1 = .completes o' → nb &&& pm = 0 →
    ∃ t u w, step s = .next t ∧ step t = .next u ∧ t.codec = s.codec ∧
      u.trace = s.trace ++ [.rd a (readValue s 0 s.codec a), .wr a w] ∧
      (a ≠ s.cfg.cap.addrReset → u.codec.read? a = some w ∧ ∀ b, b ≠ a → u.codec.read? b = s.codec.read? b) ∧
      ∀ i, i < 16 → w.getLsbD i = if pm.getLsbD i then (readValue s 0 s.codec a).getLsbD i else nb.getLsbD i

/-- A settle delay is one step that asks RegisterAccess for nothing and cannot fail (R48, R55). -/
def Obligations.DelayCannotFail : Prop :=
  ∀ (s : State) (f : Flight) (ms : Nat),
    s.flight = some f → f.plan[s.seqPc.toNat]? = some (.delay ms) → resetDue s = none →
    ∃ t, step s = .next t ∧ t.trace = s.trace ++ [.dl ms] ∧ t.seqPc = s.seqPc + 1 ∧ t.codec = s.codec ∧
      t.answers = s.answers ∧ t.busOps = s.busOps

/-- R188: a register operation that fails leaves its index in `seq_pc`, puts `st` to Reset and ends the command with
BusFailure, the result latches zero; no later step runs and no completed write is undone.  What a failed write itself
changed is the environment's (R48). -/
def Obligations.FailedOperationAborts : Prop :=
  ∀ (s : State) (f : Flight) (p : PlanStep) (changed : List (Addr × Word16)),
    s.flight = some f → f.plan[s.seqPc.toNat]? = some p → isRegisterOp p = true → resetDue s = none →
    answerAt s 0 = .fails changed →
    step s = .next { s with
      st := .reset, operands := none, r0 := 0, r1 := 0, flight := none,
      response := some (responseWord .busFailure .reset s.seqPc 0 0), trace := s.trace ++ [.fail s.seqPc.toNat],
      answers := s.answers.drop 1, busOps := s.busOps + 1,
      codec := if (writtenAddr p).isSome then s.codec.writeAll changed else s.codec }

/-- R51, under its premise "the codec is a plain register file", which asks here that the operation completes
(assumption 9): a completed write of a register other than the reset register sets it and no other, the chip reset write gives every
register its reset image, a completed read returns what the register holds and changes nothing, and a settle delay
changes nothing. -/
def Obligations.PlainRegisterFilePremise : Prop :=
  ∀ (s : State) (f : Flight) (p : PlanStep), s.flight = some f → f.plan[s.seqPc.toNat]? = some p →
    resetDue s = none → PlainRegisterFile 1 s → ∃ t, step s = .next t ∧
      (∀ a, writtenAddr p = some a → ∃ v, t.trace = s.trace ++ [.wr a v] ∧
        (a ≠ s.cfg.cap.addrReset → t.codec.read? a = some v ∧ ∀ b, b ≠ a → t.codec.read? b = s.codec.read? b)) ∧
      (writtenAddr p = some s.cfg.cap.addrReset → ∀ a, t.codec.read? a = some (codecResetImage s.cfg.cap a)) ∧
      (∀ a, p = .read a → t.trace = s.trace ++ [.rd a (s.codec.value a)]) ∧
      (writtenAddr p = none → t.codec = s.codec)

/-- A step changes no register of the codec but the one its plan step writes, and nothing but the ten registers of
`CAP` (R30, R41, R42); a step without a command in flight changes none; hardware reset apart. -/
def Obligations.OnlyTheAddressedRegisterChanges : Prop :=
  ∀ s t : State, BlockInv s = true → resetDue s = none → step s = .next t →
    (∀ f o, s.flight = some f → answerAt s 0 = .completes o →
      ∀ p, f.plan[s.seqPc.toNat]? = some p →
        (writtenAddr p = none → t.codec = s.codec) ∧
        (∀ a, writtenAddr p = some a → a ∈ roleAddrs s.cfg.cap ∧
          (a ≠ s.cfg.cap.addrReset → ∀ b, b ≠ a → t.codec.read? b = s.codec.read? b))) ∧
    (Idle s → t.codec = s.codec)

/-- No meaning touches the bus: `exec` issues no register operation, so every error it raises is raised before the bus
is touched (R42, R121, R187). -/
def Obligations.ChecksIssueNoRegisterOperation : Prop :=
  ∀ (i : Instr) (s t : State), exec i s = .next t →
    t.codec = s.codec ∧ t.answers = s.answers ∧ t.busOps = s.busOps ∧ t.cfg = s.cfg ∧ t.inputs = s.inputs

/-- The response word (R70), with the codes of R21 and R180: status in bits 2 to 0, `st` in 5 to 3, `seq_pc` in 13 to 6,
`R0` in 63 to 32, `R1` in 95 to 64, and zero in 31 to 14. -/
def Obligations.ResponseWordFields : Prop :=
  (∀ (status : Status) (st : SeqState) (seqPc : BitVec 8) (r0 r1 : Word32),
    (responseWord status st seqPc r0 r1).toNat = (statusCode status).toNat + 8 * (seqStateCode st).toNat +
      64 * seqPc.toNat + 2 ^ 32 * r0.toNat + 2 ^ 64 * r1.toNat) ∧
  [Status.ok, .unsupportedRatio, .invalidFormatSelector, .busFailure, .illegalTransition, .illegalCommand].map
    (fun e => (statusCode e).toNat) = [0, 1, 2, 3, 4, 5] ∧
  [SeqState.reset, .initialized, .clockConfigured, .formatConfigured, .active, .muted, .shuttingDown, .off].map
    (fun x => (seqStateCode x).toNat) = [0, 1, 2, 3, 4, 5, 6, 7]

/-! ### SOLVE -/

/-- SOLVE answers the PLLDivision word, or UnsupportedRatio with both result latches zero, in every state (R90, R73). -/
def Obligations.SolveAnswersTheDivision : Prop :=
  ∀ (s : State) (src tgt : Nat), Idle s →
    (∀ d, solve s.cfg.toParams src tgt = some d →
      exec (.solve src tgt) s = .next (answeredWith s
        (BitVec.ofNat 32 (d.preDivide.toNat * 2 ^ 28 + d.n.toNat * 2 ^ 24 + d.k.toNat)) 0)) ∧
    (solve s.cfg.toParams src tgt = none → exec (.solve src tgt) s = .next (rejected s .unsupportedRatio))

/-- R101: which operands succeed, with `S` four times the target: without halving those with 6·s ≤ S < 13·s, with the
one halving those with 6·h ≤ S < 13·h for `h` the floor of half the source; the quotients of an even source; and how
near the number `n + K / 2^24` times the effective source comes to `S`, where the fraction does not overflow (R94,
R95). -/
def Obligations.SolveOperandsThatSucceed : Prop :=
  (∀ src tgt : Nat, 0 < src →
    (solve thisHardware src tgt ≠ none ↔
      ((6 * src ≤ 4 * tgt ∧ 4 * tgt < 13 * src) ∨
        (4 * tgt < 6 * src ∧ 0 < src / 2 ∧ 6 * (src / 2) ≤ 4 * tgt ∧ 4 * tgt < 13 * (src / 2)))) ∧
    (∀ d, solve thisHardware src tgt = some d → (d.preDivide = true ↔ 4 * tgt < 6 * src)) ∧
    (src % 2 = 0 →
      (4 * tgt / src = 5 → 4 * tgt / (src / 2) = 10 ∨ 4 * tgt / (src / 2) = 11) ∧
      (4 * tgt / src = 4 → 4 * tgt / (src / 2) = 8 ∨ 4 * tgt / (src / 2) = 9) ∧
      (4 * tgt / src = 3 → 4 * tgt / (src / 2) = 6 ∨ 4 * tgt / (src / 2) = 7) ∧
      (4 * tgt / src ≤ 2 → solve thisHardware src tgt = none))) ∧
  (∀ tgt : Nat, solve thisHardware 0 tgt = none) ∧
  (∀ (src tgt : Nat) (d : PllDivision), solve thisHardware src tgt = some d →
    ∃ eff, eff = (if d.preDivide then src / 2 else src) ∧
      (pllK25 thisHardware (4 * tgt % eff) eff < 2 ^ 24 →
        2 * (eff * (d.n.toNat * 2 ^ 24 + d.k.toNat)) ≤ 2 * (4 * tgt * 2 ^ 24) + eff ∧
        2 * (4 * tgt * 2 ^ 24) ≤ 2 * (eff * (d.n.toNat * 2 ^ 24 + d.k.toNat)) + eff))

/-- R96: with the effective source, `scaled = n * src + m` and `m < src`; and 6 ≤ n ≤ 12 (R92). -/
def Obligations.SolveDivisionIdentity : Prop :=
  ∀ (src tgt : Nat) (d : PllDivision), solve thisHardware src tgt = some d →
    ∃ eff m, eff = (if d.preDivide then src / 2 else src) ∧ m < eff ∧ 4 * tgt = d.n.toNat * eff + m ∧
      6 ≤ d.n.toNat ∧ d.n.toNat ≤ 12

/-- R97: the two-step rounding is the exact ratio rounded half up; it is `k10 div 10`, plus 1 when the last digit is 5
or more; the truncation is smaller by exactly 1 when the fractional part is one half or more; an exact tie rounds up.
The field keeps the low 24 bits of it (R95). -/
def Obligations.SolveRoundsHalfUp : Prop :=
  (∀ m src : Nat, m < src →
    (m * (2 ^ 24 * 10) / src + 5) / 10 = (2 * m * 2 ^ 24 + src) / (2 * src) ∧
    pllK25 thisHardware m src = (m * (2 ^ 24 * 10) / src + 5) / 10 ∧
    pllK25 thisHardware m src = pllK10 thisHardware m src / 10 + (if 5 ≤ pllK10 thisHardware m src % 10 then 1 else 0) ∧
    pllK25 thisHardware m src = m * 2 ^ 24 / src + (if src ≤ 2 * (m * 2 ^ 24 % src) then 1 else 0)) ∧
  (4 * 201326593 % 134217728 = 4 ∧ 2 * (4 * 2 ^ 24) = 134217728 ∧
    solve thisHardware 134217728 201326593 = some ⟨false, 6, 1⟩) ∧
  (∀ (src tgt : Nat) (d : PllDivision), solve thisHardware src tgt = some d →
    ∃ eff, eff = (if d.preDivide then src / 2 else src) ∧ d.k.toNat = pllK25 thisHardware (4 * tgt % eff) eff % 2 ^ 24)

/-- R100: the rounded fraction lies in 0 to 2^24, and when it is 2^24. -/
def Obligations.SolveFractionRange : Prop :=
  ∀ m src : Nat, m < src →
    pllK10 thisHardware m src ≤ 167772159 ∧ pllK25 thisHardware m src ≤ 16777216 ∧
    (pllK25 thisHardware m src = 16777216 ↔ 167772155 ≤ pllK10 thisHardware m src) ∧
    (pllK25 thisHardware m src = 16777216 ↔ 167772160 * (src - m) ≤ 5 * src) ∧
    (pllK25 thisHardware m src = 16777216 ↔ 1 ≤ src - m ∧ src - m ≤ src / 33554432)

/-! ### LOOKUP and NEGOTIATE -/

/-- LOOKUP answers the row and target of the eleven recognised rates, and the 44,100 Hz row for any other (R110 to
R113). -/
def Obligations.LookupAnswersTheTable : Prop :=
  ∀ (s : State) (rate : Nat), Idle s → OnThisHardware s →
    exec (.lookup rate) s = .next (
      let e := ([(8000, 0, 12288000), (11025, 1, 11289600), (12000, 2, 12288000), (16000, 3, 12288000),
        (22050, 4, 11289600), (24000, 5, 12288000), (32000, 6, 12288000), (44100, 7, 11289600), (48000, 8, 12288000),
        (88200, 9, 11289600), (96000, 10, 12288000)].lookup rate).getD (7, 11289600)
      answeredWith s (BitVec.ofNat 32 e.1) (BitVec.ofNat 32 e.2))

/-- NEGOTIATE answers exactly complementary roles, and rejects the two unrecognised codes (R170, R185). -/
def Obligations.NegotiateAnswersComplementaryRoles : Prop :=
  ∀ s : State, Idle s →
    exec (.negotiate 0) s = .next (answeredWith s 1 0) ∧ exec (.negotiate 1) s = .next (answeredWith s 2 0) ∧
    exec (.negotiate 2) s = .next (rejected s .illegalCommand) ∧
    exec (.negotiate 3) s = .next (rejected s .illegalCommand)

/-- R171: for every valid input exactly one of the two roles is master, and which. -/
def Obligations.ExactlyOneSideIsMaster : Prop :=
  (∀ r : Role, ((negotiate r).1 = .master ↔ (negotiate r).2 = .slave) ∧
    ((negotiate r).2 = .master ↔ (negotiate r).1 = .slave) ∧
    ((rolePairWord (negotiate r)).getLsbD 0 ^^ (rolePairWord (negotiate r)).getLsbD 1) = true) ∧
  (negotiate .controllerIsMaster).1 = .master ∧ (negotiate .controllerIsSlave).2 = .master

/-- R123: the pure commands run in all eight states, write neither `st` nor `seq_pc`, and answer the same status and
results whatever the two are, and whatever `MCLK_CLASS`, `CAP`, the environment and the codec are, on blocks of the same
parameters (R6); they issue no register operation and cannot raise BusFailure (R99). -/
def Obligations.PureCommandsReadAndWriteNoState : Prop :=
  ∀ (i : Instr) (s s' : State), ((∃ a b, i = .solve a b) ∨ (∃ a, i = .lookup a) ∨ ∃ r, i = .negotiate r) →
    Idle s → Idle s' → s.cfg.toParams = s'.cfg.toParams →
    ∃ t t' w w', exec i s = .next t ∧ exec i s' = .next t' ∧ t.st = s.st ∧ t.seqPc = s.seqPc ∧ t.codec = s.codec ∧
      t.busOps = s.busOps ∧ t.trace = [] ∧ t.response = some w ∧ t'.response = some w' ∧
      respStatus w = respStatus w' ∧ respResults w = respResults w' ∧ respStatus w ≠ 3 ∧ respStatus w ≠ 4

/-! ### The sequencer's commands -/

/-- INIT from Reset: the chip reset write, the settle delay, then Initialized (R130).  What the codec's registers hold
after the chip reset write is R51's reset image, the model's choice for any environment (assumption 10; R58 leaves it to
the environment). -/
def Obligations.InitResetsTheChipAndWaits : Prop :=
  ∀ s : State, Idle s → s.st = .reset → capWf s.cfg = true →
    exec .init s = .next (started s .reset .initialized
      [.write s.cfg.cap.addrReset s.cfg.cap.resetValue, .delay s.cfg.cap.tReset]) ∧
    (NoReset s → BusCompletes 1 s → runCommand .init s = .next (ended s .ok .initialized 2 1
      [.wr s.cfg.cap.addrReset s.cfg.cap.resetValue, .dl s.cfg.cap.tReset]))

/-- CFGCLK with the codec clock master: the PLL registers, then the divider code of `DIV_MASTER` (R102, R132). -/
def Obligations.CfgclkProgramsPllThenDivider : Prop :=
  ∀ (s : State) (width rate : Nat) (d : PllDivision),
    Idle s → s.st = .initialized → capWf s.cfg = true → validWidth s.cfg.cap width = true →
    solve s.cfg.toParams (mclkHz s.cfg) (s.cfg.pllTargetFactor * (lookup s.cfg.toParams rate).targetHz) = some d →
    let c := s.cfg.cap
    let nb := place c.pllCtrlPreserve d
    let hi := BitVec.ofNat 16 (d.k.toNat / 2 ^ 16)
    let lo := BitVec.ofNat 16 (d.k.toNat % 2 ^ 16)
    let code := (divMaster c s.cfg.mclkClass).getD (lookup s.cfg.toParams rate).row 0
    let v := readValue s 0 s.codec c.addrPllCtrl
    exec (.cfgclk 1 width false rate) s = .next (started s .initialized .clockConfigured
      [.read c.addrPllCtrl, .writeMerged c.addrPllCtrl c.pllCtrlPreserve nb, .write c.addrPllKHi hi,
        .write c.addrPllKLo lo, .write c.addrClock code]) ∧
    (NoReset s → BusCompletes 5 s → runCommand (.cfgclk 1 width false rate) s = .next (ended s .ok .clockConfigured 5 5
      [.rd c.addrPllCtrl v, .wr c.addrPllCtrl ((v &&& c.pllCtrlPreserve) ||| nb), .wr c.addrPllKHi hi,
        .wr c.addrPllKLo lo, .wr c.addrClock code]))

/-- CFGCLK with the codec clock slave: no PLL, the divider code of `DIV_SLAVE` (R132, R114). -/
def Obligations.CfgclkSlaveWritesTheDividerOnly : Prop :=
  ∀ (s : State) (width rate : Nat),
    Idle s → s.st = .initialized → capWf s.cfg = true → validWidth s.cfg.cap width = true →
    let code := (divSlave s.cfg.cap s.cfg.mclkClass).getD (lookup s.cfg.toParams rate).row 0
    exec (.cfgclk 0 width false rate) s =
      .next (started s .initialized .clockConfigured [.write s.cfg.cap.addrClock code]) ∧
    (NoReset s → BusCompletes 1 s → runCommand (.cfgclk 0 width false rate) s =
      .next (ended s .ok .clockConfigured 1 1 [.wr s.cfg.cap.addrClock code]))

/-- CFGCLK under the duplex guard issues nothing and goes on to ClockConfigured, whatever the rate and the role (R134,
R226).  That a command with an empty plan runs under a `CAP` that is not well formed too is the model's reading
(assumption 12, DEDUCED). -/
def Obligations.DuplexGuardSkipsTheClockStep : Prop :=
  ∀ (s : State) (role : BitVec 2) (width rate : Nat),
    Idle s → s.st = .initialized → role.toNat < 2 → validWidth s.cfg.cap width = true →
    exec (.cfgclk role width true rate) s = .next (ended s .ok .clockConfigured 0 0 [])

/-- CFGFMT from ClockConfigured writes the OR of the four selector patterns, replacing the whole register (R137,
R138). -/
def Obligations.CfgfmtWritesTheFormatValue : Prop :=
  ∀ (s : State) (role : BitVec 2) (width : Nat) (std pol : BitVec 3) (r : Role) (i : InterfaceStd) (p : Polarity)
    (w : Word16),
    Idle s → s.st = .clockConfigured → capWf s.cfg = true →
    roleOf role = some r → stdOf std = some i → polOf pol = some p → fmtWidthOf s.cfg.cap width = some w →
    let v := fmtStd s.cfg.cap i ||| fmtPol s.cfg.cap p ||| w |||
      (match r with
        | .controllerIsMaster => 0
        | .controllerIsSlave => s.cfg.cap.fmtMs)
    exec (.cfgfmt role width std pol) s =
      .next (started s .clockConfigured .formatConfigured [.write s.cfg.cap.addrIface v]) ∧
    (NoReset s → BusCompletes 1 s → runCommand (.cfgfmt role width std pol) s =
      .next (ended s .ok .formatConfigured 1 1 [.wr s.cfg.cap.addrIface v]))

/-- ACTIVATE from FormatConfigured: input references, DAC/output, output stage, each merged on and followed by a settle
delay, then the mute bit cleared; every merge uses what its own read returned (R141). -/
def Obligations.ActivatePowersUpInOrder : Prop :=
  ∀ s : State, Idle s → s.st = .formatConfigured → capWf s.cfg = true →
    let c := s.cfg.cap
    let v0 := readValue s 0 s.codec c.addrPwrRef
    let w0 := (v0 &&& ~~~ c.bitsPwrRef) ||| c.bitsPwrRef
    let m0 := s.codec.take c c.addrPwrRef w0
    let v1 := readValue s 2 m0 c.addrPwrDac
    let w1 := (v1 &&& ~~~ c.bitsPwrDac) ||| c.bitsPwrDac
    let m1 := m0.take c c.addrPwrDac w1
    let v2 := readValue s 4 m1 c.addrPwrOut
    let w2 := (v2 &&& ~~~ c.bitsPwrOut) ||| c.bitsPwrOut
    let m2 := m1.take c c.addrPwrOut w2
    let v3 := readValue s 6 m2 c.addrMute
    let w3 := v3 &&& ~~~ c.bitMute
    exec .activate s = .next (started s .formatConfigured .active
      [.read c.addrPwrRef, .writeMerged c.addrPwrRef (~~~ c.bitsPwrRef) c.bitsPwrRef, .delay c.tPwr,
        .read c.addrPwrDac, .writeMerged c.addrPwrDac (~~~ c.bitsPwrDac) c.bitsPwrDac, .delay c.tPwr,
        .read c.addrPwrOut, .writeMerged c.addrPwrOut (~~~ c.bitsPwrOut) c.bitsPwrOut, .delay c.tPwr,
        .read c.addrMute, .writeMerged c.addrMute (~~~ c.bitMute) 0]) ∧
    (NoReset s → BusCompletes 8 s → runCommand .activate s = .next (ended s .ok .active 11 8
      [.rd c.addrPwrRef v0, .wr c.addrPwrRef w0, .dl c.tPwr, .rd c.addrPwrDac v1, .wr c.addrPwrDac w1, .dl c.tPwr,
        .rd c.addrPwrOut v2, .wr c.addrPwrOut w2, .dl c.tPwr, .rd c.addrMute v3, .wr c.addrMute w3]))

/-- MUTE from Active sets the mute bit and touches nothing else (R144). -/
def Obligations.MuteSetsTheMuteBit : Prop :=
  ∀ s : State, Idle s → s.st = .active → capWf s.cfg = true →
    let c := s.cfg.cap
    let v := readValue s 0 s.codec c.addrMute
    exec .mute s = .next (started s .active .muted
      [.read c.addrMute, .writeMerged c.addrMute (~~~ c.bitMute) c.bitMute]) ∧
    (NoReset s → BusCompletes 2 s → runCommand .mute s = .next (ended s .ok .muted 2 2
      [.rd c.addrMute v, .wr c.addrMute ((v &&& ~~~ c.bitMute) ||| c.bitMute)]))

/-- UNMUTE from Muted clears the mute bit and touches nothing else (R146). -/
def Obligations.UnmuteClearsTheMuteBit : Prop :=
  ∀ s : State, Idle s → s.st = .muted → capWf s.cfg = true →
    let c := s.cfg.cap
    let v := readValue s 0 s.codec c.addrMute
    exec .unmute s = .next (started s .muted .active
      [.read c.addrMute, .writeMerged c.addrMute (~~~ c.bitMute) 0]) ∧
    (NoReset s → BusCompletes 2 s → runCommand .unmute s = .next (ended s .ok .active 2 2
      [.rd c.addrMute v, .wr c.addrMute (v &&& ~~~ c.bitMute)]))

/-- SHUTDOWN from Active or Muted, through ShuttingDown: the mute write comes before any power-down write and the output
stage goes down before the core domains (R148, R149). -/
def Obligations.ShutdownMutesThenPowersDown : Prop :=
  ∀ s : State, Idle s → s.st = .active ∨ s.st = .muted → capWf s.cfg = true →
    let c := s.cfg.cap
    let v0 := readValue s 0 s.codec c.addrMute
    let w0 := (v0 &&& ~~~ c.bitMute) ||| c.bitMute
    let m0 := s.codec.take c c.addrMute w0
    let v1 := readValue s 2 m0 c.addrPwrOut
    let w1 := v1 &&& ~~~ c.bitsPwrOut
    let m1 := m0.take c c.addrPwrOut w1
    let v2 := readValue s 4 m1 c.addrPwrDac
    let w2 := v2 &&& ~~~ c.bitsPwrDac
    let m2 := m1.take c c.addrPwrDac w2
    let v3 := readValue s 6 m2 c.addrPwrRef
    let w3 := v3 &&& ~~~ c.bitsPwrRef
    exec .shutdown s = .next (started s .shuttingDown .off
      [.read c.addrMute, .writeMerged c.addrMute (~~~ c.bitMute) c.bitMute, .delay c.tMute,
        .read c.addrPwrOut, .writeMerged c.addrPwrOut (~~~ c.bitsPwrOut) 0, .delay c.tOutOff,
        .read c.addrPwrDac, .writeMerged c.addrPwrDac (~~~ c.bitsPwrDac) 0,
        .read c.addrPwrRef, .writeMerged c.addrPwrRef (~~~ c.bitsPwrRef) 0]) ∧
    (NoReset s → BusCompletes 8 s → runCommand .shutdown s = .next (ended s .ok .off 10 8
      [.rd c.addrMute v0, .wr c.addrMute w0, .dl c.tMute, .rd c.addrPwrOut v1, .wr c.addrPwrOut w1, .dl c.tOutOff,
        .rd c.addrPwrDac v2, .wr c.addrPwrDac w2, .rd c.addrPwrRef v3, .wr c.addrPwrRef w3]))

/-- R152: FAULT, from any state: Reset, `seq_pc` 0, and not one register operation; it is the only command that leaves
Off; and a failed register operation takes the same transition. -/
def Obligations.FaultReturnsToReset : Prop :=
  decode 0x00000000_00000000_0000000B = .ok .fault ∧
  (∀ s : State, Idle s → exec .fault s = .next (ended s .ok .reset 0 0 [])) ∧
  (∀ (i : Instr) (s t : State), Idle s → s.st = .off → exec i s = .next t → t.st ≠ .off → i = .fault) ∧
  ∀ (s : State) (f : Flight) (p : PlanStep) (changed : List (Addr × Word16)),
    s.flight = some f → f.plan[s.seqPc.toNat]? = some p → isRegisterOp p = true → resetDue s = none →
    answerAt s 0 = .fails changed → ∃ t, step s = .next t ∧ t.st = .reset

/-- R154: REMOVE, from any state: Off, `seq_pc` 0, and not one register operation. -/
def Obligations.RemoveGoesToOff : Prop :=
  decode 0x00000000_00000000_0000000C = .ok .remove ∧
  ∀ s : State, Idle s → exec .remove s = .next (ended s .ok .off 0 0 [])

/-! ### Rejections -/

/-- Every (state, command) pair the table does not list is IllegalTransition, with nothing written (R122, R184); for
CFGCLK with operands that pass its own check. -/
def Obligations.UnlistedPairsAreIllegalTransitions : Prop :=
  ∀ s : State, Idle s →
    (s.st ≠ .reset → exec .init s = .next (rejected s .illegalTransition)) ∧
    (s.st ≠ .initialized → ∀ role width duplex rate, role.toNat < 2 → validWidth s.cfg.cap width = true →
      exec (.cfgclk role width duplex rate) s = .next (rejected s .illegalTransition)) ∧
    (s.st ≠ .clockConfigured → ∀ role width std pol,
      exec (.cfgfmt role width std pol) s = .next (rejected s .illegalTransition)) ∧
    (s.st ≠ .formatConfigured → exec .activate s = .next (rejected s .illegalTransition)) ∧
    (s.st ≠ .active → exec .mute s = .next (rejected s .illegalTransition)) ∧
    (s.st ≠ .muted → exec .unmute s = .next (rejected s .illegalTransition)) ∧
    (s.st ≠ .active → s.st ≠ .muted → exec .shutdown s = .next (rejected s .illegalTransition))

/-- R189: a command that ends with UnsupportedRatio, InvalidFormatSelector, IllegalTransition or IllegalCommand writes
no state, issues no register operation, and its result latches are zero. -/
def Obligations.StatusOnlyErrorsWriteNoState : Prop :=
  ∀ (s t : State) (cw : CmdWord) (rest : List HostInput) (w : RespWord),
    Idle s → s.inputs = .command cw :: rest → step s = .next t → t.response = some w →
    respStatus w = 1 ∨ respStatus w = 2 ∨ respStatus w = 4 ∨ respStatus w = 5 →
    t.st = s.st ∧ t.seqPc = s.seqPc ∧ t.codec = s.codec ∧ t.answers = s.answers ∧ t.busOps = s.busOps ∧ t.trace = [] ∧
      respResults w = 0 ∧ t.flight = none ∧ t.operands = none

/-- CFGCLK whose solve fails ends with UnsupportedRatio, the sequencer still Initialized (R132, R181). -/
def Obligations.CfgclkSurfacesUnsupportedRatio : Prop :=
  ∀ (s : State) (width rate : Nat),
    Idle s → s.st = .initialized → validWidth s.cfg.cap width = true →
    solve s.cfg.toParams (mclkHz s.cfg) (s.cfg.pllTargetFactor * (lookup s.cfg.toParams rate).targetHz) = none →
    exec (.cfgclk 1 width false rate) s = .next (rejected s .unsupportedRatio)

/-- CFGFMT in ClockConfigured with one unrecognised selector ends with InvalidFormatSelector, with nothing written
(R139, R182). -/
def Obligations.CfgfmtRejectsUnrecognisedSelectors : Prop :=
  ∀ (s : State) (role : BitVec 2) (width : Nat) (std pol : BitVec 3),
    Idle s → s.st = .clockConfigured →
    2 ≤ role.toNat ∨ 5 ≤ std.toNat ∨ 4 ≤ pol.toNat ∨ validWidth s.cfg.cap width = false →
    exec (.cfgfmt role width std pol) s = .next (rejected s .invalidFormatSelector)

/-! ### The PLL request, the PLL image, the format value -/

/-- R133: the PLL request of CFGCLK, the master clock to twice the target internal clock, and its four results on this
hardware. -/
def Obligations.PllRequestsOfThisHardware : Prop :=
  (∀ (cls : MclkClass) (cap : Cap) (rate : Nat), cfgclkSolve (instanceOf cls cap) rate =
    solve thisHardware (mclkHz (instanceOf cls cap)) (2 * (lookup thisHardware rate).targetHz)) ∧
  ∀ (cap : Cap) (rate : Nat),
    ((lookup thisHardware rate).targetHz = 11289600 ∨ (lookup thisHardware rate).targetHz = 12288000) ∧
    ((lookup thisHardware rate).targetHz = 11289600 →
      cfgclkSolve (instanceOf .clk12M cap) rate = some ⟨false, 7, 0x86C227⟩ ∧
      cfgclkSolve (instanceOf .clk12M288 cap) rate = some ⟨false, 7, 0x59999A⟩) ∧
    ((lookup thisHardware rate).targetHz = 12288000 →
      cfgclkSolve (instanceOf .clk12M cap) rate = some ⟨false, 8, 0x3126E9⟩ ∧
      cfgclkSolve (instanceOf .clk12M288 cap) rate = some ⟨false, 8, 0x000000⟩)

/-- R135: UnsupportedRatio cannot occur in CFGCLK for this hardware: for both master-clock classes and both PLL targets
`solve` succeeds. -/
def Obligations.CfgclkNeverUnsupportedHere : Prop :=
  (∀ (cls : MclkClass) (cap : Cap) (rate : Nat), cfgclkSolve (instanceOf cls cap) rate ≠ none) ∧
  ∀ (s t : State) (cls : MclkClass) (cap : Cap) (role : BitVec 2) (width : Nat) (duplex : Bool) (rate : Nat)
    (w : RespWord), Idle s → s.cfg = instanceOf cls cap → exec (.cfgclk role width duplex rate) s = .next t →
    t.response = some w → respStatus w ≠ 1

/-- R104: encoding a PLLDivision into register writes and decoding the same bit patterns gives it back, whatever the
merge read; and R104's example. -/
def Obligations.PllImageRoundTrip : Prop :=
  (∀ (t : Word16) (d : PllDivision), decodePll 0xFFE0 ((t &&& 0xFFE0) ||| place 0xFFE0 d) (kHi d) (kLo d) = d) ∧
  (0xABC8 &&& 0xFFE0) ||| place 0xFFE0 ⟨false, 7, 0x86C227⟩ = 0xABC7 ∧ kHi ⟨false, 7, 0x86C227⟩ = 0x0086 ∧
  kLo ⟨false, 7, 0x86C227⟩ = 0xC227 ∧ decodePll 0xFFE0 0xABC7 0x0086 0xC227 = ⟨false, 7, 0x86C227⟩

/-- The same for every preserve mask that leaves five bits, with the model's reading of `decode_pll` for such a mask
(assumption 19; R103 gives it for `CAP_REF`'s mask). -/
def Obligations.PllImageRoundTripForEveryMask : Prop :=
  ∀ (pm t : Word16) (d : PllDivision), (freeBits pm).length = 5 →
    decodePll pm ((t &&& pm) ||| place pm d) (kHi d) (kLo d) = d

/-- With `CAP_REF`'s mask, `place(pre, n) = (pre << 4) | n`, and the fraction registers are `K[23:16]` and `K[15:0]`
(R31, R32, R102). -/
def Obligations.PllImageOfTheReferenceMask : Prop :=
  ∀ d : PllDivision,
    (place 0xFFE0 d).toNat = d.preDivide.toNat * 16 + d.n.toNat ∧
    (kHi d).toNat = d.k.toNat / 65536 ∧ (kLo d).toNat = d.k.toNat % 65536

/-- R47: every merge the rules build is well formed when `CAP` is. -/
def Obligations.EveryMergeIsWellFormed : Prop :=
  ∀ (cfg : Config) (d : PllDivision), capWf cfg = true →
    (∀ w ∈ pllWrites cfg.cap d, w.wf = true) ∧
    ∀ (a : Addr) (b : Word16), (setBits a b).wf = true ∧ (clearBits a b).wf = true

/-- The format value tells all valid operands apart, width patterns included, under a well-formed `CAP` (R138). -/
def Obligations.FormatValueIsInjective : Prop :=
  ∀ (cfg : Config) (r r' : Role) (i i' : InterfaceStd) (p p' : Polarity) (width width' : Nat) (w w' : Word16),
    capWf cfg = true → fmtWidthOf cfg.cap width = some w → fmtWidthOf cfg.cap width' = some w' →
    fmtValue cfg.cap r i p w = fmtValue cfg.cap r' i' p' w' → r = r' ∧ i = i' ∧ p = p' ∧ w = w'

/-! ### The machine as a whole -/

/-- What hardware reset leaves, for every configuration (R39, R210): `st` Reset, `seq_pc` 0; and the invariant holds. -/
def Obligations.ResetStateHoldsTheInvariant : Prop :=
  ∀ cfg : Config, (State.resetWith cfg).st = .reset ∧ (State.resetWith cfg).seqPc = 0 ∧
    Idle (State.resetWith cfg) ∧ (State.resetWith cfg).codec.wf = true ∧ BlockInv (State.resetWith cfg) = true

/-- Every step keeps the invariant: the codec's registers keep their canonical form, a plan in flight is well formed and
reaches only the registers of `CAP`, `seq_pc` names one of its steps with one event in the trace for each step done,
and between commands `st` is never ShuttingDown and the response that stands carries `st`. -/
def Obligations.StepKeepsTheInvariant : Prop :=
  ∀ s t : State, BlockInv s = true → step s = .next t → BlockInv t = true

/-- Every step keeps plan order: what has reached RegisterAccess is the plan's own first steps, in order, none dropped
and none added, up to the last one; or the step has failed, and nothing follows (R53). -/
def Obligations.StepKeepsPlanOrder : Prop :=
  ∀ s t : State, BlockInv s = true → InPlanOrder s → step s = .next t →
    InPlanOrder t ∧ t.busOps ≤ s.busOps + 1 ∧
    ∀ f, s.flight = some f → resetDue s = none →
      List.Forall₂ matchesStep (f.plan.take (s.seqPc.toNat + 1)) t.trace ∨
        (t.flight = none ∧ t.trace = s.trace ++ [.fail s.seqPc.toNat])

/-- A command in flight ends: within eleven steps, the length of the longest plan, it returns a response, in its To
state with status OK or in Reset with BusFailure (R52, R121, R188).  The bound rests on assumption 6 (DEDUCED): the last
plan step does step 7 of R121 too; and that every operation completes or fails is assumption 16. -/
def Obligations.EveryCommandEnds : Prop :=
  ∀ (s : State) (f : Flight), BlockInv s = true → s.flight = some f → NoReset s →
    ∃ u w, drain longestPlan s = .next u ∧ Idle u ∧ u.response = some w ∧
      ((u.st = f.dest ∧ respStatus w = 0 ∧ u.seqPc.toNat = f.plan.length) ∨
        (u.st = .reset ∧ respStatus w = 3 ∧ u.seqPc.toNat < f.plan.length))

/-- `st` changes only as the transition table says: along a row of it, to Reset by a failed operation, by FAULT or by
hardware reset, or to Off by REMOVE (R22, R120, R122, R188). -/
def Obligations.SequencerMovesByTheTable : Prop :=
  ∀ s t : State, BlockInv s = true → step s = .next t → t.st ≠ s.st →
    (t.st = .reset ∧
      ((∃ changed, s.flight ≠ none ∧ answerAt s 0 = .fails changed) ∨
        (Idle s ∧ ∃ rest, s.inputs = .command 0x00000000_00000000_0000000B :: rest) ∨
        ∃ strap after rest, s.inputs = .hardwareReset strap after :: rest)) ∨
    (s.st, t.st) ∈ ([(.reset, .initialized), (.initialized, .clockConfigured), (.clockConfigured, .formatConfigured),
      (.formatConfigured, .active), (.active, .muted), (.muted, .active), (.active, .shuttingDown),
      (.muted, .shuttingDown), (.shuttingDown, .off)] : List (SeqState × SeqState)) ∨
    (t.st = .off ∧ Idle s ∧ ∃ rest, s.inputs = .command 0x00000000_00000000_0000000C :: rest)

/-- Nothing but FAULT or hardware reset leaves Off (R122, R198). -/
def Obligations.OnlyFaultOrHardwareResetLeavesOff : Prop :=
  ∀ s t : State, BlockInv s = true → s.st = .off → step s = .next t → t.st ≠ .off →
    t.st = .reset ∧ Idle s ∧ ∃ rest, s.inputs = .command 0x00000000_00000000_0000000B :: rest ∨
      ∃ strap after, s.inputs = .hardwareReset strap after :: rest

/-- No response word carries ShuttingDown (R150), whichever step puts it out or leaves it standing, and each carries the
state `st` is in (R70).  That a response stands until the next command is the model's choice (assumption 15). -/
def Obligations.NoResponseCarriesShuttingDown : Prop :=
  ∀ (s t : State) (w : RespWord), BlockInv s = true → step s = .next t → t.response = some w →
    respSt w ≠ 6 ∧ respSt w = seqStateCode t.st

/-- One word presented to an idle block and run by the machine's own steps is the whole command: `exec` and then its
plan to the end (R5, R121).  The count of twelve steps, one for acceptance and eleven for the longest plan, is the
model's (assumption 6, DEDUCED). -/
def Obligations.MachineRunIsTheWholeCommand : Prop :=
  ∀ (s : State) (cw : CmdWord) (i : Instr), Idle s → s.inputs = [.command cw] → decode cw = .ok i →
    Host.Core.run Sys2Proof.core (longestPlan + 1) s = runCommand i { s with inputs := [], operands := some cw }
end

