-- ==== Sys2Proof/Laws/State.lean ====
section
/-! SUPPORT. One lemma per field per update of the state, true by rfl. -/

namespace Sys2Proof.Machine

/-! ### `State.answered` -/

@[simp] theorem State.answered_st (s : State) : s.answered.st = s.st := rfl
@[simp] theorem State.answered_seqPc (s : State) : s.answered.seqPc = s.seqPc := rfl
@[simp] theorem State.answered_operands (s : State) : s.answered.operands = s.operands := rfl
@[simp] theorem State.answered_r0 (s : State) : s.answered.r0 = s.r0 := rfl
@[simp] theorem State.answered_r1 (s : State) : s.answered.r1 = s.r1 := rfl
@[simp] theorem State.answered_flight (s : State) : s.answered.flight = s.flight := rfl
@[simp] theorem State.answered_response (s : State) : s.answered.response = s.response := rfl
@[simp] theorem State.answered_trace (s : State) : s.answered.trace = s.trace := rfl
@[simp] theorem State.answered_cfg (s : State) : s.answered.cfg = s.cfg := rfl
@[simp] theorem State.answered_inputs (s : State) : s.answered.inputs = s.inputs := rfl
@[simp] theorem State.answered_answers (s : State) : s.answered.answers = s.answers.tail := rfl
@[simp] theorem State.answered_busOps (s : State) : s.answered.busOps = s.busOps + 1 := rfl
@[simp] theorem State.answered_codec (s : State) : s.answered.codec = s.codec := rfl

/-! ### `State.log` -/

@[simp] theorem State.log_st (e : Event) (s : State) : (s.log e).st = s.st := rfl
@[simp] theorem State.log_seqPc (e : Event) (s : State) : (s.log e).seqPc = s.seqPc := rfl
@[simp] theorem State.log_operands (e : Event) (s : State) : (s.log e).operands = s.operands := rfl
@[simp] theorem State.log_r0 (e : Event) (s : State) : (s.log e).r0 = s.r0 := rfl
@[simp] theorem State.log_r1 (e : Event) (s : State) : (s.log e).r1 = s.r1 := rfl
@[simp] theorem State.log_flight (e : Event) (s : State) : (s.log e).flight = s.flight := rfl
@[simp] theorem State.log_response (e : Event) (s : State) : (s.log e).response = s.response := rfl
@[simp] theorem State.log_trace (e : Event) (s : State) : (s.log e).trace = s.trace ++ [e] := rfl
@[simp] theorem State.log_cfg (e : Event) (s : State) : (s.log e).cfg = s.cfg := rfl
@[simp] theorem State.log_inputs (e : Event) (s : State) : (s.log e).inputs = s.inputs := rfl
@[simp] theorem State.log_answers (e : Event) (s : State) : (s.log e).answers = s.answers := rfl
@[simp] theorem State.log_busOps (e : Event) (s : State) : (s.log e).busOps = s.busOps := rfl
@[simp] theorem State.log_codec (e : Event) (s : State) : (s.log e).codec = s.codec := rfl

/-! ### `State.startCommand` -/

@[simp] theorem State.startCommand_st (s : State) : s.startCommand.st = s.st := rfl
@[simp] theorem State.startCommand_seqPc (s : State) : s.startCommand.seqPc = s.seqPc := rfl
@[simp] theorem State.startCommand_operands (s : State) : s.startCommand.operands = s.operands := rfl
@[simp] theorem State.startCommand_r0 (s : State) : s.startCommand.r0 = 0 := rfl
@[simp] theorem State.startCommand_r1 (s : State) : s.startCommand.r1 = 0 := rfl
@[simp] theorem State.startCommand_flight (s : State) : s.startCommand.flight = s.flight := rfl
@[simp] theorem State.startCommand_response (s : State) : s.startCommand.response = none := rfl
@[simp] theorem State.startCommand_trace (s : State) : s.startCommand.trace = [] := rfl
@[simp] theorem State.startCommand_cfg (s : State) : s.startCommand.cfg = s.cfg := rfl
@[simp] theorem State.startCommand_inputs (s : State) : s.startCommand.inputs = s.inputs := rfl
@[simp] theorem State.startCommand_answers (s : State) : s.startCommand.answers = s.answers := rfl
@[simp] theorem State.startCommand_busOps (s : State) : s.startCommand.busOps = s.busOps := rfl
@[simp] theorem State.startCommand_codec (s : State) : s.startCommand.codec = s.codec := rfl

/-! ### `State.endCommand` -/

@[simp] theorem State.endCommand_st (e : Status) (s : State) : (s.endCommand e).st = s.st := rfl
@[simp] theorem State.endCommand_seqPc (e : Status) (s : State) : (s.endCommand e).seqPc = s.seqPc := rfl
@[simp] theorem State.endCommand_operands (e : Status) (s : State) : (s.endCommand e).operands = none := rfl
@[simp] theorem State.endCommand_r0 (e : Status) (s : State) : (s.endCommand e).r0 = 0 := rfl
@[simp] theorem State.endCommand_r1 (e : Status) (s : State) : (s.endCommand e).r1 = 0 := rfl
@[simp] theorem State.endCommand_flight (e : Status) (s : State) : (s.endCommand e).flight = none := rfl
@[simp] theorem State.endCommand_response (e : Status) (s : State) :
    (s.endCommand e).response = some (responseWord e s.st s.seqPc s.r0 s.r1) := rfl
@[simp] theorem State.endCommand_trace (e : Status) (s : State) : (s.endCommand e).trace = s.trace := rfl
@[simp] theorem State.endCommand_cfg (e : Status) (s : State) : (s.endCommand e).cfg = s.cfg := rfl
@[simp] theorem State.endCommand_inputs (e : Status) (s : State) : (s.endCommand e).inputs = s.inputs := rfl
@[simp] theorem State.endCommand_answers (e : Status) (s : State) : (s.endCommand e).answers = s.answers := rfl
@[simp] theorem State.endCommand_busOps (e : Status) (s : State) : (s.endCommand e).busOps = s.busOps := rfl
@[simp] theorem State.endCommand_codec (e : Status) (s : State) : (s.endCommand e).codec = s.codec := rfl

/-! ### `returnOk` -/

@[simp] theorem returnOk_st (a b : Word32) (s : State) : (returnOk a b s).st = s.st := rfl
@[simp] theorem returnOk_seqPc (a b : Word32) (s : State) : (returnOk a b s).seqPc = s.seqPc := rfl
@[simp] theorem returnOk_operands (a b : Word32) (s : State) : (returnOk a b s).operands = none := rfl
@[simp] theorem returnOk_r0 (a b : Word32) (s : State) : (returnOk a b s).r0 = 0 := rfl
@[simp] theorem returnOk_r1 (a b : Word32) (s : State) : (returnOk a b s).r1 = 0 := rfl
@[simp] theorem returnOk_flight (a b : Word32) (s : State) : (returnOk a b s).flight = none := rfl
@[simp] theorem returnOk_response (a b : Word32) (s : State) :
    (returnOk a b s).response = some (responseWord .ok s.st s.seqPc a b) := rfl
@[simp] theorem returnOk_trace (a b : Word32) (s : State) : (returnOk a b s).trace = s.trace := rfl
@[simp] theorem returnOk_cfg (a b : Word32) (s : State) : (returnOk a b s).cfg = s.cfg := rfl
@[simp] theorem returnOk_inputs (a b : Word32) (s : State) : (returnOk a b s).inputs = s.inputs := rfl
@[simp] theorem returnOk_answers (a b : Word32) (s : State) : (returnOk a b s).answers = s.answers := rfl
@[simp] theorem returnOk_busOps (a b : Word32) (s : State) : (returnOk a b s).busOps = s.busOps := rfl
@[simp] theorem returnOk_codec (a b : Word32) (s : State) : (returnOk a b s).codec = s.codec := rfl

/-! ### `raise` -/

@[simp] theorem raise_st (e : Status) (s : State) : (raise e s).st = s.st := rfl
@[simp] theorem raise_seqPc (e : Status) (s : State) : (raise e s).seqPc = s.seqPc := rfl
@[simp] theorem raise_operands (e : Status) (s : State) : (raise e s).operands = none := rfl
@[simp] theorem raise_r0 (e : Status) (s : State) : (raise e s).r0 = 0 := rfl
@[simp] theorem raise_r1 (e : Status) (s : State) : (raise e s).r1 = 0 := rfl
@[simp] theorem raise_flight (e : Status) (s : State) : (raise e s).flight = none := rfl
@[simp] theorem raise_response (e : Status) (s : State) :
    (raise e s).response = some (responseWord e s.st s.seqPc 0 0) := rfl
@[simp] theorem raise_trace (e : Status) (s : State) : (raise e s).trace = s.trace := rfl
@[simp] theorem raise_cfg (e : Status) (s : State) : (raise e s).cfg = s.cfg := rfl
@[simp] theorem raise_inputs (e : Status) (s : State) : (raise e s).inputs = s.inputs := rfl
@[simp] theorem raise_answers (e : Status) (s : State) : (raise e s).answers = s.answers := rfl
@[simp] theorem raise_busOps (e : Status) (s : State) : (raise e s).busOps = s.busOps := rfl
@[simp] theorem raise_codec (e : Status) (s : State) : (raise e s).codec = s.codec := rfl

/-! ### `abort` -/

@[simp] theorem abort_st (s : State) : (abort s).st = .reset := rfl
@[simp] theorem abort_seqPc (s : State) : (abort s).seqPc = s.seqPc := rfl
@[simp] theorem abort_operands (s : State) : (abort s).operands = none := rfl
@[simp] theorem abort_r0 (s : State) : (abort s).r0 = 0 := rfl
@[simp] theorem abort_r1 (s : State) : (abort s).r1 = 0 := rfl
@[simp] theorem abort_flight (s : State) : (abort s).flight = none := rfl
@[simp] theorem abort_response (s : State) :
    (abort s).response = some (responseWord .busFailure .reset s.seqPc 0 0) := rfl
@[simp] theorem abort_trace (s : State) : (abort s).trace = s.trace ++ [.fail s.seqPc.toNat] := rfl
@[simp] theorem abort_cfg (s : State) : (abort s).cfg = s.cfg := rfl
@[simp] theorem abort_inputs (s : State) : (abort s).inputs = s.inputs := rfl
@[simp] theorem abort_answers (s : State) : (abort s).answers = s.answers := rfl
@[simp] theorem abort_busOps (s : State) : (abort s).busOps = s.busOps := rfl
@[simp] theorem abort_codec (s : State) : (abort s).codec = s.codec := rfl

/-! ### `complete` -/

@[simp] theorem complete_st (dest : SeqState) (s : State) : (complete dest s).st = dest := rfl
@[simp] theorem complete_seqPc (dest : SeqState) (s : State) : (complete dest s).seqPc = s.seqPc := rfl
@[simp] theorem complete_operands (dest : SeqState) (s : State) : (complete dest s).operands = none := rfl
@[simp] theorem complete_r0 (dest : SeqState) (s : State) : (complete dest s).r0 = 0 := rfl
@[simp] theorem complete_r1 (dest : SeqState) (s : State) : (complete dest s).r1 = 0 := rfl
@[simp] theorem complete_flight (dest : SeqState) (s : State) : (complete dest s).flight = none := rfl
@[simp] theorem complete_response (dest : SeqState) (s : State) :
    (complete dest s).response = some (responseWord .ok dest s.seqPc s.r0 s.r1) := rfl
@[simp] theorem complete_trace (dest : SeqState) (s : State) : (complete dest s).trace = s.trace := rfl
@[simp] theorem complete_cfg (dest : SeqState) (s : State) : (complete dest s).cfg = s.cfg := rfl
@[simp] theorem complete_inputs (dest : SeqState) (s : State) : (complete dest s).inputs = s.inputs := rfl
@[simp] theorem complete_answers (dest : SeqState) (s : State) : (complete dest s).answers = s.answers := rfl
@[simp] theorem complete_busOps (dest : SeqState) (s : State) : (complete dest s).busOps = s.busOps := rfl
@[simp] theorem complete_codec (dest : SeqState) (s : State) : (complete dest s).codec = s.codec := rfl

/-! ### `accept` -/

@[simp] theorem accept_st (cw : CmdWord) (rest : List HostInput) (s : State) : (accept cw rest s).st = s.st := rfl
@[simp] theorem accept_seqPc (cw : CmdWord) (rest : List HostInput) (s : State) :
    (accept cw rest s).seqPc = s.seqPc := rfl
@[simp] theorem accept_operands (cw : CmdWord) (rest : List HostInput) (s : State) :
    (accept cw rest s).operands = some cw := rfl
@[simp] theorem accept_r0 (cw : CmdWord) (rest : List HostInput) (s : State) : (accept cw rest s).r0 = s.r0 := rfl
@[simp] theorem accept_r1 (cw : CmdWord) (rest : List HostInput) (s : State) : (accept cw rest s).r1 = s.r1 := rfl
@[simp] theorem accept_flight (cw : CmdWord) (rest : List HostInput) (s : State) :
    (accept cw rest s).flight = s.flight := rfl
@[simp] theorem accept_response (cw : CmdWord) (rest : List HostInput) (s : State) :
    (accept cw rest s).response = s.response := rfl
@[simp] theorem accept_trace (cw : CmdWord) (rest : List HostInput) (s : State) :
    (accept cw rest s).trace = s.trace := rfl
@[simp] theorem accept_cfg (cw : CmdWord) (rest : List HostInput) (s : State) : (accept cw rest s).cfg = s.cfg := rfl
@[simp] theorem accept_inputs (cw : CmdWord) (rest : List HostInput) (s : State) :
    (accept cw rest s).inputs = rest := rfl
@[simp] theorem accept_answers (cw : CmdWord) (rest : List HostInput) (s : State) :
    (accept cw rest s).answers = s.answers := rfl
@[simp] theorem accept_busOps (cw : CmdWord) (rest : List HostInput) (s : State) :
    (accept cw rest s).busOps = s.busOps := rfl
@[simp] theorem accept_codec (cw : CmdWord) (rest : List HostInput) (s : State) :
    (accept cw rest s).codec = s.codec := rfl

/-! ### `hardwareReset` -/

@[simp] theorem hardwareReset_st (strap : MclkClass) (s : State) : (hardwareReset strap s).st = .reset := rfl
@[simp] theorem hardwareReset_seqPc (strap : MclkClass) (s : State) : (hardwareReset strap s).seqPc = 0 := rfl
@[simp] theorem hardwareReset_operands (strap : MclkClass) (s : State) : (hardwareReset strap s).operands = none := rfl
@[simp] theorem hardwareReset_r0 (strap : MclkClass) (s : State) : (hardwareReset strap s).r0 = 0 := rfl
@[simp] theorem hardwareReset_r1 (strap : MclkClass) (s : State) : (hardwareReset strap s).r1 = 0 := rfl
@[simp] theorem hardwareReset_flight (strap : MclkClass) (s : State) : (hardwareReset strap s).flight = none := rfl
@[simp] theorem hardwareReset_response (strap : MclkClass) (s : State) : (hardwareReset strap s).response = none := rfl
@[simp] theorem hardwareReset_trace (strap : MclkClass) (s : State) : (hardwareReset strap s).trace = [] := rfl
@[simp] theorem hardwareReset_cfg (strap : MclkClass) (s : State) :
    (hardwareReset strap s).cfg = { s.cfg with mclkClass := strap } := rfl
@[simp] theorem hardwareReset_inputs (strap : MclkClass) (s : State) : (hardwareReset strap s).inputs = s.inputs := rfl
@[simp] theorem hardwareReset_answers (strap : MclkClass) (s : State) :
    (hardwareReset strap s).answers = s.answers := rfl
@[simp] theorem hardwareReset_busOps (strap : MclkClass) (s : State) : (hardwareReset strap s).busOps = s.busOps := rfl
@[simp] theorem hardwareReset_codec (strap : MclkClass) (s : State) :
    (hardwareReset strap s).codec = s.codec.unknown := rfl

end Sys2Proof.Machine
end

