-- ==== Sys2Proof/Laws/Memory.lean ====
section
/-! SUPPORT. The codec's registers: what a read gives after a write, and that every operation keeps the canonical
form. -/

namespace Sys2Proof.Machine

/-! ### Cells -/

theorem findCell_putCell_same (a : Nat) (v : Word16) (l : List (Nat × Word16)) :
    findCell a (putCell a v l) = some v := by
  induction l with
  | nil => simp [putCell, findCell]
  | cons c rest ih =>
    obtain ⟨b, w⟩ := c
    simp only [putCell]
    split
    · simp [findCell]
    · split
      · simp [findCell]
      · simp [findCell, *]

theorem findCell_putCell_other {a b : Nat} (h : b ≠ a) (v : Word16) (l : List (Nat × Word16)) :
    findCell b (putCell a v l) = findCell b l := by
  induction l with
  | nil => simp [putCell, findCell, h]
  | cons c rest ih =>
    obtain ⟨d, w⟩ := c
    simp only [putCell]
    split
    · simp [findCell, h]
    · split
      · subst_vars
        simp [findCell, h]
      · simp [findCell, ih]

theorem risingFrom_mono {lo lo' : Nat} (h : lo' ≤ lo) (l : List (Nat × Word16)) (hl : risingFrom lo l = true) :
    risingFrom lo' l = true := by
  cases l with
  | nil => rfl
  | cons c rest =>
    obtain ⟨b, w⟩ := c
    simp only [risingFrom, Bool.and_eq_true, decide_eq_true_eq] at hl ⊢
    exact ⟨⟨by omega, hl.1.2⟩, hl.2⟩

theorem risingFrom_putCell {lo a : Nat} (ha : lo ≤ a) (hlt : a < 256) (v : Word16) (l : List (Nat × Word16))
    (hl : risingFrom lo l = true) : risingFrom lo (putCell a v l) = true := by
  induction l generalizing lo with
  | nil => simp [putCell, risingFrom, ha, hlt]
  | cons c rest ih =>
    obtain ⟨b, w⟩ := c
    simp only [risingFrom, Bool.and_eq_true, decide_eq_true_eq] at hl
    obtain ⟨⟨hb, hb'⟩, hr⟩ := hl
    simp only [putCell]
    split
    · simp only [risingFrom, Bool.and_eq_true, decide_eq_true_eq]
      exact ⟨⟨ha, hlt⟩, ⟨by omega, hb'⟩, hr⟩
    · split
      · subst_vars
        simp only [risingFrom, Bool.and_eq_true, decide_eq_true_eq]
        exact ⟨⟨ha, hlt⟩, hr⟩
      · simp only [risingFrom, Bool.and_eq_true, decide_eq_true_eq]
        exact ⟨⟨hb, hb'⟩, ih (by omega) hr⟩

theorem findCell_image (g : Nat → Word16) (n lo a : Nat) (h : lo ≤ a) (h' : a < lo + n) :
    findCell a ((List.range' lo n).map fun i => (i, g i)) = some (g a) := by
  induction n generalizing lo with
  | zero => omega
  | succ k ih =>
    simp only [List.range'_succ, List.map_cons, findCell]
    split
    · subst_vars
      rfl
    · exact ih (lo + 1) (by omega) (by omega)

theorem risingFrom_image (g : Nat → Word16) (n lo : Nat) (h : lo + n ≤ 256) :
    risingFrom lo ((List.range' lo n).map fun i => (i, g i)) = true := by
  induction n generalizing lo with
  | zero => rfl
  | succ k ih =>
    simp only [List.range'_succ, List.map_cons, risingFrom, Bool.and_eq_true, decide_eq_true_eq]
    exact ⟨⟨le_refl lo, by omega⟩, ih (lo + 1) (by omega)⟩

/-! ### Registers -/

@[simp] theorem Memory.read?_write_same (m : Memory) (a : Addr) (v : Word16) : (m.write a v).read? a = some v :=
  findCell_putCell_same _ _ _

theorem Memory.read?_write_other (m : Memory) {a b : Addr} (h : b ≠ a) (v : Word16) :
    (m.write a v).read? b = m.read? b :=
  findCell_putCell_other (fun e => h (BitVec.eq_of_toNat_eq e)) _ _

@[simp] theorem Memory.read?_chipReset (m : Memory) (c : Cap) (a : Addr) :
    (m.chipReset c).read? a = some (codecResetImage c a) := by
  simp only [Memory.read?, Memory.chipReset, List.range_eq_range']
  rw [findCell_image (fun i => codecResetImage c (BitVec.ofNat 8 i)) 256 0 a.toNat (Nat.zero_le _) (by omega)]
  simp

@[simp] theorem Memory.read?_unknown (m : Memory) (a : Addr) : m.unknown.read? a = none := rfl

theorem Memory.take_other {m : Memory} {c : Cap} {a : Addr} (h : a ≠ c.addrReset) (v : Word16) :
    m.take c a v = m.write a v := by
  simp [Memory.take, h]

theorem Memory.take_reset (m : Memory) (c : Cap) (v : Word16) : m.take c c.addrReset v = m.chipReset c := by
  simp [Memory.take]

/-! ### The canonical form -/

theorem Memory.wf_write {m : Memory} (h : m.wf = true) (a : Addr) (v : Word16) : (m.write a v).wf = true :=
  risingFrom_putCell (Nat.zero_le _) a.isLt v m.cells h

theorem Memory.wf_writeAll {m : Memory} (h : m.wf = true) (l : List (Addr × Word16)) : (m.writeAll l).wf = true := by
  induction l generalizing m with
  | nil => exact h
  | cons p rest ih => exact ih (Memory.wf_write h p.1 p.2)

theorem Memory.wf_chipReset (m : Memory) (c : Cap) : (m.chipReset c).wf = true := by
  simp only [Memory.wf, Memory.chipReset, List.range_eq_range']
  exact risingFrom_image (fun i => codecResetImage c (BitVec.ofNat 8 i)) 256 0 (by omega)

theorem Memory.wf_take {m : Memory} (h : m.wf = true) (c : Cap) (a : Addr) (v : Word16) : (m.take c a v).wf = true := by
  simp only [Memory.take]
  split
  · exact Memory.wf_chipReset m c
  · exact Memory.wf_write h a v

theorem Memory.wf_unknown (m : Memory) : m.unknown.wf = true := rfl

theorem State.reset_codec_wf : State.reset.codec.wf = true := rfl

end Sys2Proof.Machine
end

