-- ==== Sys2Proof/Laws/Ops.lean ====
section
/-! SUPPORT. One lemma per shared operation that says everything it can do; the provers cite these instead of unfolding
the operation. -/

namespace Sys2Proof.Machine

/-! ### The environment's answers -/

theorem answerAt_zero (s : State) : answerAt s 0 = s.answer := by
  unfold answerAt State.answer
  cases s.answers <;> rfl

/-- After an operation the answers that follow move up by one. -/
theorem answerAt_answered (s : State) (n : Nat) : answerAt s.answered n = answerAt s (n + 1) := by
  unfold answerAt
  cases h : s.answers with
  | nil => simp [h, Nat.add_assoc, Nat.add_comm 1 n]
  | cons a rest => simp [h, Nat.add_assoc, Nat.add_comm 1 n]

/-- The answers depend on the list of answers and the count of operations alone. -/
theorem answerAt_congr {s t : State} (h : t.answers = s.answers) (h' : t.busOps = s.busOps) (n : Nat) :
    answerAt t n = answerAt s n := by
  simp [answerAt, h, h']

/-! ### RegisterAccess -/

theorem memRead_completes {s : State} {v : Option Word16} (h : answerAt s 0 = .completes v) (a : Addr) :
    memRead a s = (some (returned v s.codec a), s.answered.log (.rd a (returned v s.codec a))) := by
  rw [answerAt_zero] at h
  simp [memRead, h]

theorem memRead_fails {s : State} {l : List (Addr × Word16)} (h : answerAt s 0 = .fails l) (a : Addr) :
    memRead a s = (none, s.answered) := by
  rw [answerAt_zero] at h
  simp [memRead, h]

theorem memWrite_completes {s : State} {o : Option Word16} (h : answerAt s 0 = .completes o) (a : Addr) (v : Word16) :
    memWrite a v s = (true, { s.answered with codec := s.codec.take s.cfg.cap a v }.log (.wr a v)) := by
  rw [answerAt_zero] at h
  simp [memWrite, h]

theorem memWrite_fails {s : State} {l : List (Addr × Word16)} (h : answerAt s 0 = .fails l) (a : Addr) (v : Word16) :
    memWrite a v s = (false, { s.answered with codec := s.codec.writeAll l }) := by
  rw [answerAt_zero] at h
  simp [memWrite, h]

/-! ### The life of a command -/

theorem whenIdle_idle {s : State} (h : Idle s) (meaning : State → Result) :
    whenIdle s meaning = meaning s.startCommand := by
  simp [whenIdle, h]

theorem whenIdle_flight {s : State} {f : Flight} (h : s.flight = some f) (meaning : State → Result) :
    whenIdle s meaning = .refused .commandInFlight := by
  simp [whenIdle, h]

theorem ifLegal_legal {c : SeqCmd} {s : State} (h : legal c s.st = true) (k : State → Result) :
    ifLegal c s k = k s := by
  simp [ifLegal, h]

theorem ifLegal_illegal {c : SeqCmd} {s : State} (h : legal c s.st = false) (k : State → Result) :
    ifLegal c s k = .next (raise .illegalTransition s) := by
  simp [ifLegal, h]

theorem startPlan_nil (during dest : SeqState) (s : State) :
    startPlan during dest [] s = .next (complete dest { s with seqPc := 0, st := during }) := by
  simp [startPlan]

theorem startPlan_wf {plan : List PlanStep} {s : State} (hp : plan ≠ []) (hc : capWf s.cfg = true)
    (during dest : SeqState) :
    startPlan during dest plan s =
      .next { s with seqPc := 0, st := during, flight := some { plan, t := 0, dest } } := by
  simp [startPlan, hp, hc]

theorem startPlan_illFormed {plan : List PlanStep} {s : State} (hp : plan ≠ []) (hc : capWf s.cfg = false)
    (during dest : SeqState) : startPlan during dest plan s = .refused .illFormedCap := by
  simp [startPlan, hp, hc]

/-- Everything a completed plan step can do next: there is a further step, or the command completes. -/
theorem stepDone_cases (f : Flight) (s : State) :
    ((s.seqPc + 1).toNat < f.plan.length ∧ stepDone f s = { s with seqPc := s.seqPc + 1, flight := some f }) ∨
    (f.plan.length ≤ (s.seqPc + 1).toNat ∧
      stepDone f s = complete f.dest { s with seqPc := s.seqPc + 1, flight := some f }) := by
  by_cases h : (s.seqPc + 1).toNat < f.plan.length
  · exact .inl ⟨h, by simp only [stepDone, if_pos h]⟩
  · exact .inr ⟨by omega, by simp only [stepDone, if_neg h]⟩

/-- Everything one plan step can do: a delay; a completed read; a completed write; or a failed operation, which
aborts. -/
theorem perform_cases (f : Flight) (p : PlanStep) (s : State) :
    (∃ ms, p = .delay ms ∧ perform f p s = stepDone f (s.log (.dl ms))) ∨
    (∃ a o, p = .read a ∧ answerAt s 0 = .completes o ∧
      perform f p s =
        stepDone { f with t := returned o s.codec a } (s.answered.log (.rd a (returned o s.codec a)))) ∨
    (∃ a v o, (p = .write a v ∨ ∃ pm nb, p = .writeMerged a pm nb ∧ v = (f.t &&& pm) ||| nb) ∧
      answerAt s 0 = .completes o ∧
      perform f p s = stepDone f ({ s.answered with codec := s.codec.take s.cfg.cap a v }.log (.wr a v))) ∨
    (∃ l, isRegisterOp p = true ∧ answerAt s 0 = .fails l ∧
      perform f p s =
        abort { s.answered with codec := if (writtenAddr p).isSome then s.codec.writeAll l else s.codec }) := by
  cases p with
  | delay ms => exact .inl ⟨ms, rfl, rfl⟩
  | read a =>
    cases h : answerAt s 0 with
    | completes o => exact .inr (.inl ⟨a, o, rfl, rfl, by simp only [perform, memRead_completes h]⟩)
    | fails l =>
      exact .inr (.inr (.inr ⟨l, rfl, rfl, by simp only [perform, memRead_fails h]; rfl⟩))
  | write a v =>
    cases h : answerAt s 0 with
    | completes o =>
      exact .inr (.inr (.inl ⟨a, v, o, .inl rfl, rfl, by simp only [perform, performWrite, memWrite_completes h]⟩))
    | fails l =>
      exact .inr (.inr (.inr ⟨l, rfl, rfl, by simp only [perform, performWrite, memWrite_fails h]; rfl⟩))
  | writeMerged a pm nb =>
    cases h : answerAt s 0 with
    | completes o =>
      exact .inr (.inr (.inl ⟨a, (f.t &&& pm) ||| nb, o, .inr ⟨pm, nb, rfl, rfl⟩, rfl,
        by simp only [perform, performWrite, memWrite_completes h]⟩))
    | fails l =>
      exact .inr (.inr (.inr ⟨l, rfl, rfl, by simp only [perform, performWrite, memWrite_fails h]; rfl⟩))

/-! ### The response word -/

theorem respStatus_responseWord (status : Status) (st : SeqState) (seqPc : BitVec 8) (r0 r1 : Word32) :
    respStatus (responseWord status st seqPc r0 r1) = statusCode status := by
  apply BitVec.eq_of_getLsbD_eq
  intro j hj
  simp only [respStatus, responseWord, BitVec.getLsbD_extractLsb', BitVec.getLsbD_append, hj, Nat.zero_add]
  simp [show j < 32 by omega]

theorem respSt_responseWord (status : Status) (st : SeqState) (seqPc : BitVec 8) (r0 r1 : Word32) :
    respSt (responseWord status st seqPc r0 r1) = seqStateCode st := by
  apply BitVec.eq_of_getLsbD_eq
  intro j hj
  simp only [respSt, responseWord, BitVec.getLsbD_extractLsb', BitVec.getLsbD_append, hj]
  simp [show 3 + j < 32 by omega, hj]

theorem respResults_responseWord (status : Status) (st : SeqState) (seqPc : BitVec 8) (r0 r1 : Word32) :
    respResults (responseWord status st seqPc r0 r1) = r1 ++ r0 := by
  apply BitVec.eq_of_getLsbD_eq
  intro j hj
  simp only [respResults, responseWord, BitVec.getLsbD_extractLsb', BitVec.getLsbD_append, hj]
  by_cases h : j < 32
  · simp [h]
  · simp [h]

/-! ### The step -/

theorem resetDue_of_noReset {s : State} (h : NoReset s) : resetDue s = none := by
  unfold resetDue
  split
  · exact absurd ‹_› (h _ _ _)
  · rfl
  · rfl

/-- Everything that lets a reset arrive: it is the host's next input, and either no command is in flight or its plan has
done the steps the reset waits for. -/
theorem resetDue_cases {s : State} {strap : MclkClass} (h : resetDue s = some strap) :
    ∃ after rest, s.inputs = .hardwareReset strap after :: rest ∧ (s.flight ≠ none → after ≤ s.seqPc.toNat) := by
  unfold resetDue at h
  split at h
  · rename_i strap' after rest hi
    split at h
    · split at h
      · simp only [Option.some.injEq] at h
        subst h
        exact ⟨after, rest, hi, fun _ => ‹_›⟩
      · cases h
    · simp only [Option.some.injEq] at h
      subst h
      exact ⟨after, rest, hi, fun hne => absurd ‹_› hne⟩
  · cases h
  · cases h

theorem step_flight {s : State} {f : Flight} (h : s.flight = some f) (hr : resetDue s = none) :
    step s = .next (planStep f s) := by
  simp [step, h, hr]

/-- Everything a step can do: a hardware reset; a plan step; a command; nothing. -/
theorem step_cases (s : State) :
    (∃ strap after rest, s.inputs = .hardwareReset strap after :: rest ∧ resetDue s = some strap ∧
      step s = .next (hardwareReset strap { s with inputs := rest })) ∨
    (resetDue s = none ∧ ∃ f, s.flight = some f ∧ step s = .next (planStep f s)) ∨
    (Idle s ∧ ∃ cw rest i, s.inputs = .command cw :: rest ∧ decode cw = .ok i ∧
      step s = exec i (accept cw rest s)) ∨
    (Idle s ∧ ∃ cw rest e, s.inputs = .command cw :: rest ∧ decode cw = .error e ∧
      step s = .next (rejectWord (accept cw rest s))) ∨
    (Idle s ∧ s.inputs = [] ∧ step s = .next s) := by
  cases hr : resetDue s with
  | some strap =>
    obtain ⟨after, rest, hi, -⟩ := resetDue_cases hr
    exact .inl ⟨strap, after, rest, hi, rfl, by simp [step, hr, hi]⟩
  | none =>
    cases hf : s.flight with
    | some f => exact .inr (.inl ⟨rfl, f, rfl, step_flight hf hr⟩)
    | none =>
      have hs : step s = takeCommand s := by simp [step, hr, hf]
      have hid : Idle s := hf
      cases hi : s.inputs with
      | nil => exact .inr (.inr (.inr (.inr ⟨hid, rfl, by simp [hs, takeCommand, hi]⟩)))
      | cons x rest =>
        cases x with
        | hardwareReset strap after => simp [resetDue, hi, hf] at hr
        | command cw =>
          cases hd : decode cw with
          | ok i => exact .inr (.inr (.inl ⟨hid, cw, rest, i, rfl, hd, by simp [hs, takeCommand, hi, hd]⟩))
          | error e => exact .inr (.inr (.inr (.inl ⟨hid, cw, rest, e, rfl, hd, by simp [hs, takeCommand, hi, hd]⟩)))

theorem planStep_of_get {s : State} {f : Flight} {p : PlanStep} (h : f.plan[s.seqPc.toNat]? = some p) :
    planStep f s = perform f p s := by
  simp [planStep, h]

theorem step_reset {s : State} {strap : MclkClass} {after : Nat} {rest : List HostInput}
    (h : s.flight ≠ none → after ≤ s.seqPc.toNat) (hi : s.inputs = .hardwareReset strap after :: rest) :
    step s = .next (hardwareReset strap { s with inputs := rest }) := by
  cases hf : s.flight with
  | none => simp [step, resetDue, hi, hf]
  | some f => simp [step, resetDue, hi, hf, h (by simp [hf])]

/-- The invariant in flight, as a conjunction. -/
theorem inv_flight {s : State} {f : Flight} (h : s.flight = some f) :
    BlockInv s = true ↔ s.codec.wf = true ∧ s.seqPc.toNat ≤ longestPlan ∧ flightOk s f = true := by
  simp [BlockInv, h, and_assoc]

/-- The invariant between commands, as a conjunction. -/
theorem inv_idle {s : State} (h : Idle s) :
    BlockInv s = true ↔ s.codec.wf = true ∧ s.seqPc.toNat ≤ longestPlan ∧ idleOk s = true := by
  simp [BlockInv, show s.flight = none from h, and_assoc]

/-! ### The end of a run -/

theorem drain_idle {s : State} (h : Idle s) (k : Nat) : drain k s = .next s := by
  cases k <;> simp [drain, show s.flight = none from h]

theorem drain_flight {s : State} {f : Flight} (h : s.flight = some f) (hr : resetDue s = none) (k : Nat) :
    drain (k + 1) s = drain k (planStep f s) := by
  simp [drain, h, step_flight h hr]

end Sys2Proof.Machine
end

