-- ==== Sys2Proof/Laws/Run.lean ====
section
/-! SUPPORT. A plan run to its end with every operation completing: one lemma for all plans, by induction over the steps
still to come. -/

namespace Sys2Proof.Machine

theorem completes_of {s : State} {k n : Nat} (h : BusCompletes k s) (hn : n < k) :
    ∃ o, answerAt s n = .completes o := by
  have hc := h n hn
  cases ha : answerAt s n with
  | completes o => exact ⟨o, rfl⟩
  | fails l => simp [ha, answerCompletes] at hc

theorem readValue_completes {s : State} {n : Nat} {o : Option Word16} (h : answerAt s n = .completes o) (m : Memory)
    (a : Addr) : readValue s n m a = returned o m a := by
  simp [readValue, h]

/-- `planEvents` depends on the environment and `CAP` alone. -/
theorem planEvents_congr {s t : State} (d : Nat) (hc : t.cfg = s.cfg) (ha : ∀ n, answerAt t n = answerAt s (n + d))
    (ps : List PlanStep) (n : Nat) (v : Word16) (m : Memory) :
    planEvents t n v m ps = planEvents s (n + d) v m ps := by
  induction ps generalizing n v m with
  | nil => rfl
  | cons p ps ih =>
    have hr : ∀ a, readValue t n m a = readValue s (n + d) m a := fun a => by simp [readValue, ha]
    cases p <;> simp only [planEvents, hc, hr, ih, Nat.add_right_comm n 1 d]

/-- The state a plan in flight ends in when the operations of its remaining steps `post` all complete: the To state,
`seq_pc` the length of the plan, one event for each remaining step, and the codec as those events leave it. -/
def planEnd (s : State) (f : Flight) (post : List PlanStep) : State :=
  { s with
    st := f.dest, seqPc := BitVec.ofNat 8 f.plan.length, operands := none, r0 := 0, r1 := 0, flight := none,
    response := some (responseWord .ok f.dest (BitVec.ofNat 8 f.plan.length) s.r0 s.r1),
    trace := s.trace ++ planEvents s 0 f.t s.codec post, answers := s.answers.drop (countOps post),
    busOps := s.busOps + countOps post, codec := codecAfter s.cfg.cap s.codec (planEvents s 0 f.t s.codec post) }

/-- What one completed plan step leaves for the next: everything but the trace, the environment and the codec is
as it was. -/
structure StepLeft (s : State) (f : Flight) (p : PlanStep) (ps : List PlanStep) (t : State) (g : Flight) where
  (d : Nat) (e : Event)
  plan : g.plan = f.plan
  dest : g.dest = f.dest
  seqPc : t.seqPc = s.seqPc
  cfg : t.cfg = s.cfg
  r0 : t.r0 = s.r0
  r1 : t.r1 = s.r1
  inputs : t.inputs = s.inputs
  trace : t.trace = s.trace ++ [e]
  answers : t.answers = s.answers.drop d
  busOps : t.busOps = s.busOps + d
  ops : countOps (p :: ps) = countOps ps + d
  events : planEvents s 0 f.t s.codec (p :: ps) = e :: planEvents s d g.t t.codec ps
  codec : codecAfter s.cfg.cap s.codec [e] = t.codec

theorem StepLeft.answerAt_eq {s : State} {f : Flight} {p : PlanStep} {ps : List PlanStep} {t : State} {g : Flight}
    (h : StepLeft s f p ps t g) (n : Nat) : answerAt t n = answerAt s (n + h.d) := by
  simp only [answerAt, h.answers, h.busOps, List.getElem?_drop]
  rw [Nat.add_comm h.d n, Nat.add_assoc, Nat.add_comm h.d n]

theorem codecAfter_cons (c : Cap) (m : Memory) (e : Event) (es : List Event) :
    codecAfter c m (e :: es) = codecAfter c (codecAfter c m [e]) es := by
  cases e <;> simp [codecAfter]

/-- Ending from the state after a step is ending from the state before it. -/
theorem StepLeft.planEnd_eq {s : State} {f : Flight} {p : PlanStep} {ps : List PlanStep} {t : State} {g : Flight}
    (h : StepLeft s f p ps t g) : planEnd t g ps = planEnd s f (p :: ps) := by
  have he : planEvents t 0 g.t t.codec ps = planEvents s h.d g.t t.codec ps := by
    rw [planEvents_congr h.d h.cfg h.answerAt_eq, Nat.zero_add]
  unfold planEnd
  rw [he, h.events, codecAfter_cons, h.codec, h.plan, h.dest, h.cfg, h.r0, h.r1, h.inputs, h.trace, h.answers, h.busOps,
    h.ops, List.drop_drop]
  simp [Nat.add_assoc, Nat.add_comm, Nat.add_left_comm]

/-- A plan in flight whose remaining operations all complete runs to its end. -/
theorem drain_completes (post : List PlanStep) (s : State) (f : Flight) (k : Nat) (hf : s.flight = some f)
    (hp : f.plan.drop s.seqPc.toNat = post) (hne : post ≠ []) (hlen : f.plan.length < 256)
    (hk : post.length ≤ k) (hr : NoReset s) (hb : BusCompletes (countOps post) s) :
    drain k s = .next (planEnd s f post) := by
  induction post generalizing s f k with
  | nil => exact absurd rfl hne
  | cons p ps ih =>
    obtain ⟨k, rfl⟩ : ∃ j, k = j + 1 := ⟨k - 1, by simp at hk; omega⟩
    have hget : f.plan[s.seqPc.toNat]? = some p := by rw [← List.head?_drop, hp, List.head?_cons]
    have hlt : s.seqPc.toNat < f.plan.length := (List.getElem?_eq_some_iff.mp hget).1
    have hdrop : f.plan.drop (s.seqPc.toNat + 1) = ps := by rw [← List.drop_drop, hp, List.drop_one, List.tail_cons]
    have hpc : (s.seqPc + 1).toNat = s.seqPc.toNat + 1 := by
      rw [BitVec.toNat_add]
      exact Nat.mod_eq_of_lt (by simp; omega)
    have hll : f.plan.length = s.seqPc.toNat + 1 + ps.length := by
      have := congrArg List.length hp
      simp at this
      omega
    rw [drain_flight hf (resetDue_of_noReset hr), planStep_of_get hget]
    have key : ∀ (t : State) (g : Flight), StepLeft s f p ps t g →
        drain k (stepDone g t) = .next (planEnd s f (p :: ps)) := by
      intro t g h
      rw [← h.planEnd_eq]
      rcases stepDone_cases g t with ⟨h1, h2⟩ | ⟨h1, h2⟩ <;> rw [h2] <;> rw [h.seqPc, hpc, h.plan] at h1
      · refine (ih { t with seqPc := t.seqPc + 1, flight := some g } g k rfl ?_ ?_ ?_ ?_ ?_ ?_).trans ?_
        · show List.drop (t.seqPc + 1).toNat g.plan = ps
          rw [h.seqPc, hpc, h.plan, hdrop]
        · rintro rfl
          simp at hll
          omega
        · rw [h.plan]
          exact hlen
        · simpa using hk
        · show NoReset t
          intro strap after rest
          rw [h.inputs]
          exact hr strap after rest
        · intro n hn
          have hops := h.ops
          exact (congrArg answerCompletes (h.answerAt_eq n)).trans (hb _ (by omega))
        · have he : planEvents { t with seqPc := t.seqPc + 1, flight := some g } 0 g.t t.codec ps =
              planEvents t 0 g.t t.codec ps :=
            planEvents_congr (s := t) (t := { t with seqPc := t.seqPc + 1, flight := some g }) 0 rfl (fun _ => rfl) ps 0
              g.t t.codec
          unfold planEnd
          rw [he]
      · obtain rfl : ps = [] := List.eq_nil_of_length_eq_zero (by omega)
        rw [drain_idle rfl]
        have hpc' : t.seqPc + 1 = BitVec.ofNat 8 g.plan.length := by
          apply BitVec.eq_of_toNat_eq
          rw [h.seqPc, hpc, h.plan]
          simp at hll
          simp
          omega
        unfold planEnd
        rw [← hpc']
        simp [complete, State.endCommand, planEvents, codecAfter, countOps]
    cases p with
    | delay ms => exact key _ _ {
        d := 0, e := .dl ms, plan := rfl, dest := rfl, seqPc := rfl, cfg := rfl, r0 := rfl, r1 := rfl, inputs := rfl,
        trace := rfl, answers := rfl, busOps := rfl, ops := rfl, events := rfl, codec := rfl }
    | read a =>
      obtain ⟨o, ho⟩ := completes_of (n := 0) hb (by simp [countOps])
      simp only [perform, memRead_completes ho]
      exact key _ _ {
        d := 1, e := .rd a (returned o s.codec a), plan := rfl, dest := rfl, seqPc := rfl, cfg := rfl, r0 := rfl,
        r1 := rfl, inputs := rfl, trace := rfl, answers := by simp, busOps := rfl, ops := rfl,
        events := by simp [planEvents, readValue_completes ho], codec := rfl }
    | write a v =>
      obtain ⟨o, ho⟩ := completes_of (n := 0) hb (by simp [countOps])
      simp only [perform, performWrite, memWrite_completes ho]
      exact key _ _ {
        d := 1, e := .wr a v, plan := rfl, dest := rfl, seqPc := rfl, cfg := rfl, r0 := rfl,
        r1 := rfl, inputs := rfl, trace := rfl, answers := by simp, busOps := rfl, ops := rfl, events := rfl,
        codec := rfl }
    | writeMerged a pm nb =>
      obtain ⟨o, ho⟩ := completes_of (n := 0) hb (by simp [countOps])
      simp only [perform, performWrite, memWrite_completes ho]
      exact key _ _ {
        d := 1, e := .wr a ((f.t &&& pm) ||| nb), plan := rfl, dest := rfl, seqPc := rfl, cfg := rfl, r0 := rfl,
        r1 := rfl, inputs := rfl, trace := rfl, answers := by simp, busOps := rfl, ops := rfl, events := rfl,
        codec := rfl }

/-- A command that starts a plan whose operations all complete ends as the plan's events say. -/
theorem runCommand_started {s : State} {i : Instr} {during dest : SeqState} {plan : List PlanStep}
    (he : exec i s = .next (started s during dest plan)) (hne : plan ≠ []) (hlen : plan.length ≤ longestPlan)
    (hr : NoReset s) (hb : BusCompletes (countOps plan) s) :
    runCommand i s = .next (planEnd (started s during dest plan) ⟨plan, 0, dest⟩ plan) := by
  simp only [runCommand, he]
  have hlt : plan.length < 256 := Nat.lt_of_le_of_lt hlen (by simp [longestPlan])
  exact drain_completes plan (started s during dest plan) ⟨plan, 0, dest⟩ longestPlan rfl rfl hne hlt hlen hr hb

@[simp] theorem readValue_started (s : State) (during dest : SeqState) (plan : List PlanStep) (n : Nat) (m : Memory)
    (a : Addr) : readValue (started s during dest plan) n m a = readValue s n m a := rfl

/-- One step of a run of a machine. -/
theorem run_next_of (M : Host.Core) {k : Nat} {s t : M.State} (h : M.step s = .next t) :
    M.run (k + 1) s = M.run k t := by
  simp only [Host.Core.run, h]

/-- One step of a run of this machine. -/
theorem run_next {k : Nat} {s t : State} (h : step s = .next t) :
    Host.Core.run Sys2Proof.core (k + 1) s = Host.Core.run Sys2Proof.core k t :=
  run_next_of Sys2Proof.core h

end Sys2Proof.Machine
end

