-- ==== Sys2Proof/Laws/Exec.lean ====
section
/-! SUPPORT. Everything a meaning can do and everything a step can do, said once: the provers case on these instead of
unfolding `exec` and `step`. -/

namespace Sys2Proof.Machine

/-! ### The bits `place` fills -/

/-- Bits put where a mask is 0 are none of the mask's. -/
theorem placeBits_free (pm : Word16) (ps : List Nat) (h : ∀ p ∈ ps, pm.getLsbD p = false) (bs : List Bool) :
    placeBits ps bs &&& pm = 0 := by
  induction ps generalizing bs with
  | nil => simp [placeBits]
  | cons p ps ih =>
    cases bs with
    | nil => simp [placeBits]
    | cons b bs =>
      have h1 := ih (fun q hq => h q (by simp [hq])) bs
      have h2 := h p (by simp)
      apply BitVec.eq_of_getLsbD_eq
      intro j hj
      have h3 := congrArg (fun w => w.getLsbD j) h1
      simp only [BitVec.getLsbD_and] at h3
      simp only [placeBits, BitVec.getLsbD_and, BitVec.getLsbD_or, BitVec.getLsbD_shiftLeft, BitVec.getLsbD_setWidth,
        BitVec.getLsbD_ofBool, Bool.and_or_distrib_right, h3]
      by_cases hjp : j = p
      · simp [hjp, h2]
      · have hne : ¬(j - p = 0 ∧ p ≤ j) := by omega
        by_cases hlt : j < p
        · simp [hlt]
        · have : j - p ≠ 0 := by omega
          simp [this]

theorem place_free (pm : Word16) (d : PllDivision) : place pm d &&& pm = 0 := by
  refine placeBits_free pm _ (fun p hp => ?_) _
  simp only [freeBits, List.mem_filter, Bool.not_eq_true', List.mem_range] at hp
  exact hp.2

/-! ### The plans -/

/-- The plan of CFGCLK with the codec clock master is well formed. -/
theorem planWf_pll (c : Cap) (d : PllDivision) (v : Word16) :
    planWf c (encodePll c d ++ [.write c.addrClock v]) = true := by
  simp [planWf, encodePll, pllWrites, RegisterWrite.steps, stepAddr, roleAddrs, mergesPaired, place_free, longestPlan]

/-- What a meaning starts, when it starts a plan: the empty plans are those of CFGCLK under the duplex guard, FAULT and
REMOVE; every other plan is well formed and moves `st` along a row of the table. -/
def StartsPlan (i : Instr) (s : State) (during dest : SeqState) (plan : List PlanStep) : Prop :=
  (plan = [] ∧ during = s.st ∧
    (dest = .clockConfigured ∧ s.st = .initialized ∨ dest = .reset ∧ i = .fault ∨ dest = .off ∧ i = .remove)) ∨
  (plan ≠ [] ∧ planMoves during dest = true ∧ planWf s.cfg.cap plan = true ∧
    (during = s.st ∨ during = .shuttingDown ∧ (s.st = .active ∨ s.st = .muted)))

/-! ### A meaning -/

/-- Everything a meaning can do on an idle block: it raises a status-only error, answers, or starts a plan. -/
theorem exec_cases (i : Instr) (s : State) (h : Idle s) :
    (∃ e, exec i s = .next (raise e s.startCommand)) ∨
    (∃ a b, exec i s = .next (returnOk a b s.startCommand)) ∨
    (∃ dest during plan, exec i s = startPlan during dest plan s.startCommand ∧ StartsPlan i s during dest plan) := by
  have hl : ∀ c k, (∃ e, ifLegal c s.startCommand k = .next (raise e s.startCommand)) ∨
      (legal c s.st = true ∧ ifLegal c s.startCommand k = k s.startCommand) := by
    intro c k
    cases hh : legal c s.st
    · exact .inl ⟨_, ifLegal_illegal (by simpa using hh) k⟩
    · exact .inr ⟨rfl, ifLegal_legal (by simpa using hh) k⟩
  cases i with
  | solve a b =>
    simp only [exec, execSolve, whenIdle_idle h]
    cases solve s.startCommand.cfg.toParams a b
    · exact .inl ⟨_, rfl⟩
    · exact .inr (.inl ⟨_, _, rfl⟩)
  | lookup a =>
    simp only [exec, execLookup, whenIdle_idle h]
    exact .inr (.inl ⟨_, _, rfl⟩)
  | negotiate r =>
    simp only [exec, execNegotiate, whenIdle_idle h]
    cases roleOf r
    · exact .inl ⟨_, rfl⟩
    · exact .inr (.inl ⟨_, _, rfl⟩)
  | init =>
    simp only [exec, execInit, whenIdle_idle h]
    rcases hl .init _ with h1 | ⟨h1, h2⟩
    · exact .inl h1
    · refine .inr (.inr ⟨_, _, _, h2, .inr ⟨by simp [initPlan], ?_, ?_, .inl rfl⟩⟩)
      · simp only [State.startCommand_st]
        revert h1
        cases s.st <;> simp [legal, planMoves]
      · simp [planWf, initPlan, RegisterWrite.steps, stepAddr, roleAddrs, mergesPaired, longestPlan]
  | cfgclk role width duplex rate =>
    simp only [exec, execCfgclk, whenIdle_idle h]
    cases roleOf role with
    | none => exact .inl ⟨_, rfl⟩
    | some r =>
      dsimp only
      split
      · rcases hl .cfgclk _ with h1 | ⟨h1, h2⟩
        · exact .inl h1
        · rw [h2]
          have hst : s.st = .initialized := by
            revert h1
            cases s.st <;> simp [legal]
          cases hp : cfgclkPlan s.startCommand.cfg r duplex rate with
          | none => exact .inl ⟨_, rfl⟩
          | some plan =>
            refine .inr (.inr ⟨_, _, plan, rfl, ?_⟩)
            cases duplex with
            | true =>
              simp only [cfgclkPlan, if_true, Option.some.injEq] at hp
              exact .inl ⟨hp.symm, rfl, .inl ⟨rfl, hst⟩⟩
            | false =>
              have key : plan ≠ [] ∧ planWf s.cfg.cap plan = true := by
                simp only [cfgclkPlan, Bool.false_eq_true, if_false] at hp
                cases r with
                | controllerIsMaster =>
                  simp only [Option.some.injEq] at hp
                  subst hp
                  simp [dividerWrite, planWf, RegisterWrite.steps, stepAddr, roleAddrs, mergesPaired, longestPlan]
                | controllerIsSlave =>
                  dsimp only at hp
                  split at hp
                  · simp only [Option.some.injEq] at hp
                    subst hp
                    exact ⟨by simp [dividerWrite, RegisterWrite.steps], planWf_pll _ _ _⟩
                  · cases hp
              exact .inr ⟨key.1, by simp [hst, planMoves], key.2, .inl rfl⟩
      · exact .inl ⟨_, rfl⟩
  | cfgfmt role width std pol =>
    simp only [exec, execCfgfmt, whenIdle_idle h]
    rcases hl .cfgfmt _ with h1 | ⟨h1, h2⟩
    · exact .inl h1
    · rw [h2]
      cases cfgfmtValue s.startCommand.cfg.cap role width std pol
      · exact .inl ⟨_, rfl⟩
      · refine .inr (.inr ⟨_, _, _, rfl, .inr ⟨by simp [RegisterWrite.steps], ?_, ?_, .inl rfl⟩⟩)
        · simp only [State.startCommand_st]
          revert h1
          cases s.st <;> simp [legal, planMoves]
        · simp [planWf, RegisterWrite.steps, stepAddr, roleAddrs, mergesPaired, longestPlan]
  | activate =>
    simp only [exec, execActivate, whenIdle_idle h]
    rcases hl .activate _ with h1 | ⟨h1, h2⟩
    · exact .inl h1
    · refine .inr (.inr ⟨_, _, _, h2, .inr ⟨by simp [activatePlan, setBits, RegisterWrite.steps], ?_, ?_, .inl rfl⟩⟩)
      · simp only [State.startCommand_st]
        revert h1
        cases s.st <;> simp [legal, planMoves]
      · simp [planWf, activatePlan, setBits, clearBits, RegisterWrite.steps, stepAddr, roleAddrs, mergesPaired,
          longestPlan]
  | mute =>
    simp only [exec, execMute, whenIdle_idle h]
    rcases hl .mute _ with h1 | ⟨h1, h2⟩
    · exact .inl h1
    · refine .inr (.inr ⟨_, _, _, h2, .inr ⟨by simp [mutePlan, setBits, RegisterWrite.steps], ?_, ?_, .inl rfl⟩⟩)
      · simp only [State.startCommand_st]
        revert h1
        cases s.st <;> simp [legal, planMoves]
      · simp [planWf, mutePlan, setBits, RegisterWrite.steps, stepAddr, roleAddrs, mergesPaired, longestPlan]
  | unmute =>
    simp only [exec, execUnmute, whenIdle_idle h]
    rcases hl .unmute _ with h1 | ⟨h1, h2⟩
    · exact .inl h1
    · refine .inr (.inr ⟨_, _, _, h2, .inr ⟨by simp [unmutePlan, clearBits, RegisterWrite.steps], ?_, ?_, .inl rfl⟩⟩)
      · simp only [State.startCommand_st]
        revert h1
        cases s.st <;> simp [legal, planMoves]
      · simp [planWf, unmutePlan, clearBits, RegisterWrite.steps, stepAddr, roleAddrs, mergesPaired, longestPlan]
  | shutdown =>
    simp only [exec, execShutdown, whenIdle_idle h]
    rcases hl .shutdown _ with h1 | ⟨h1, h2⟩
    · exact .inl h1
    · refine .inr (.inr ⟨_, _, _, h2,
        .inr ⟨by simp [shutdownPlan, setBits, RegisterWrite.steps], rfl, ?_, .inr ⟨rfl, ?_⟩⟩⟩)
      · simp [planWf, shutdownPlan, setBits, clearBits, RegisterWrite.steps, stepAddr, roleAddrs, mergesPaired,
          longestPlan]
      · revert h1
        cases s.st <;> simp [legal]
  | fault =>
    simp only [exec, execFault, whenIdle_idle h]
    rcases hl .fault _ with h1 | ⟨h1, h2⟩
    · exact .inl h1
    · exact .inr (.inr ⟨_, _, _, h2, .inl ⟨rfl, rfl, .inr (.inl ⟨rfl, rfl⟩)⟩⟩)
  | remove =>
    simp only [exec, execRemove, whenIdle_idle h]
    rcases hl .remove _ with h1 | ⟨h1, h2⟩
    · exact .inl h1
    · exact .inr (.inr ⟨_, _, _, h2, .inl ⟨rfl, rfl, .inr (.inr ⟨rfl, rfl⟩)⟩⟩)

/-- Everything `exec` can answer next on an idle block: a status-only error, an answer, a command with an empty plan
completed, or a plan started, `CAP` being well formed. -/
theorem exec_next {i : Instr} {s t : State} (h : Idle s) (ht : exec i s = .next t) :
    (∃ e, t = raise e s.startCommand) ∨
    (∃ a b, t = returnOk a b s.startCommand) ∨
    (∃ dest, t = complete dest { s.startCommand with seqPc := 0 } ∧ StartsPlan i s s.st dest []) ∨
    (∃ during dest plan,
      t = { s.startCommand with seqPc := 0, st := during, flight := some { plan, t := 0, dest } } ∧
      capWf s.cfg = true ∧ plan ≠ [] ∧ StartsPlan i s during dest plan) := by
  rcases exec_cases i s h with ⟨e, h'⟩ | ⟨a, b, h'⟩ | ⟨dest, during, plan, h', hp⟩ <;> rw [h'] at ht
  · cases ht
    exact .inl ⟨e, rfl⟩
  · cases ht
    exact .inr (.inl ⟨a, b, rfl⟩)
  · by_cases hne : plan = []
    · subst hne
      rw [startPlan_nil] at ht
      cases ht
      have hd : during = s.st := by
        rcases hp with ⟨-, hd, -⟩ | ⟨hne, -⟩
        · exact hd
        · exact absurd rfl hne
      subst hd
      exact .inr (.inr (.inl ⟨dest, rfl, hp⟩))
    · cases hc : capWf s.cfg with
      | false =>
        rw [startPlan_illFormed hne (by simpa using hc)] at ht
        cases ht
      | true =>
        rw [startPlan_wf hne (by simpa using hc)] at ht
        cases ht
        exact .inr (.inr (.inr ⟨during, dest, plan, rfl, rfl, hne, hp⟩))

end Sys2Proof.Machine
end

