-- ==== Sys2Proof/Laws/PerInstr.lean ====
section
/-! SUPPORT. A statement for all instructions, one lemma per constructor of `Instr`: the word of a command belongs to
the command's row of the match and mask table (30_encoding.md R69). -/

namespace Sys2Proof.Laws.RowMatch

/-- The word of a command belongs to the command's row of R69. -/
def Statement (i : Instr) : Prop := (opcodeRow (opcodeOfInstr i)).holds (encode i) = true

/-- A mask acts on a packed word field by field. -/
theorem packWord_and (op mo : BitVec 4) (role mr : BitVec 2) (width mw : BitVec 8) (std ms pol mp : BitVec 3)
    (duplex : Bool) (md : BitVec 1) (mz : BitVec 11) (a ma b mb : Word32) :
    packWord op role width std pol duplex a b &&& (mb ++ ma ++ (mz ++ md ++ mp ++ ms ++ mw ++ mr ++ mo)) =
      (b &&& mb) ++ (a &&& ma) ++ (0#11 ++ (BitVec.ofBool duplex &&& md) ++ (pol &&& mp) ++ (std &&& ms) ++
        (width &&& mw) ++ (role &&& mr) ++ (op &&& mo)) := by
  unfold packWord
  rw [BitVec.and_append, BitVec.and_append, BitVec.and_append, BitVec.and_append, BitVec.and_append, BitVec.and_append,
    BitVec.and_append, BitVec.and_append, BitVec.zero_and]

theorem of_and {i : Instr} {v : CmdWord} (h : encode i &&& (opcodeRow (opcodeOfInstr i)).maskBits = v)
    (hv : v = (opcodeRow (opcodeOfInstr i)).matchBits) : Statement i := by
  simp only [Statement, OpcodeRow.holds, h, hv, decide_true]

theorem solve (sourceHz targetHz : Nat) : Statement (.solve sourceHz targetHz) :=
  of_and (packWord_and 0x1 0xF 0 3 0 0xFF 0 7 0 7 false 1 0x7FF (BitVec.ofNat 32 sourceHz) 0
    (BitVec.ofNat 32 targetHz) 0) (by simp; rfl)

theorem lookup (sampleRate : Nat) : Statement (.lookup sampleRate) :=
  of_and (packWord_and 0x2 0xF 0 3 0 0xFF 0 7 0 7 false 1 0x7FF (BitVec.ofNat 32 sampleRate) 0 0 0xFFFFFFFF)
    (by simp; rfl)

theorem negotiate (role : BitVec 2) : Statement (.negotiate role) :=
  of_and (packWord_and 0x3 0xF role 0 0 0xFF 0 7 0 7 false 1 0x7FF 0 0xFFFFFFFF 0 0xFFFFFFFF) (by simp; rfl)

theorem init : Statement .init := by
  unfold Statement
  decide

theorem cfgclk (role : BitVec 2) (width : Nat) (duplex : Bool) (sampleRate : Nat) :
    Statement (.cfgclk role width duplex sampleRate) :=
  of_and (packWord_and 0x5 0xF role 0 (BitVec.ofNat 8 width) 0 0 7 0 7 duplex 0 0x7FF (BitVec.ofNat 32 sampleRate) 0 0
    0xFFFFFFFF) (by simp; rfl)

theorem cfgfmt (role : BitVec 2) (width : Nat) (std pol : BitVec 3) : Statement (.cfgfmt role width std pol) :=
  of_and (packWord_and 0x6 0xF role 0 (BitVec.ofNat 8 width) 0 std 0 pol 0 false 1 0x7FF 0 0xFFFFFFFF 0 0xFFFFFFFF)
    (by simp; rfl)

theorem activate : Statement .activate := by
  unfold Statement
  decide

theorem mute : Statement .mute := by
  unfold Statement
  decide

theorem unmute : Statement .unmute := by
  unfold Statement
  decide

theorem shutdown : Statement .shutdown := by
  unfold Statement
  decide

theorem fault : Statement .fault := by
  unfold Statement
  decide

theorem remove : Statement .remove := by
  unfold Statement
  decide

end Sys2Proof.Laws.RowMatch
end

