-- ==== Sys2Proof/Laws/Solver.lean ====
section
/-! SUPPORT. The values of the parameters on this hardware (00_scope.md R6), and one lemma each for what `solve` and
`lookup` can answer; the provers cite these instead of unfolding the two. -/

namespace Sys2Proof.Machine

/-! ### The parameters of this hardware -/

@[simp] theorem thisHardware_nMin : thisHardware.nMin = 6 := rfl
@[simp] theorem thisHardware_nMax : thisHardware.nMax = 12 := rfl
@[simp] theorem thisHardware_nBits : thisHardware.nBits = 4 := rfl
@[simp] theorem thisHardware_kBits : thisHardware.kBits = 24 := rfl
@[simp] theorem thisHardware_vcoScale : thisHardware.vcoScale = 4 := rfl
@[simp] theorem thisHardware_fixedPllSize : thisHardware.fixedPllSize = 167772160 := rfl
@[simp] theorem thisHardware_fallbackRow : thisHardware.fallbackRow = 7 := rfl
@[simp] theorem thisHardware_target44k1 : thisHardware.target44k1 = 11289600 := rfl
@[simp] theorem thisHardware_target48k : thisHardware.target48k = 12288000 := rfl
@[simp] theorem thisHardware_pllTargetFactor : thisHardware.pllTargetFactor = 2 := rfl
@[simp] theorem instanceOf_toParams (strap : MclkClass) (cap : Cap) :
    (instanceOf strap cap).toParams = thisHardware := rfl
@[simp] theorem instanceOf_cap (strap : MclkClass) (cap : Cap) : (instanceOf strap cap).cap = cap := rfl
@[simp] theorem instanceOf_mclkClass (strap : MclkClass) (cap : Cap) : (instanceOf strap cap).mclkClass = strap := rfl

/-! ### SOLVE -/

/-- The fields of a division on this hardware: the quotient, where the range check has passed, and the low 24 bits of
the rounded fraction. -/
theorem divisionOf_thisHardware {pre : Bool} {scaled src : Nat} (h : scaled / src ≤ 12) :
    (divisionOf thisHardware pre scaled src).preDivide = pre ∧
    (divisionOf thisHardware pre scaled src).n.toNat = scaled / src ∧
    (divisionOf thisHardware pre scaled src).k.toNat = pllK25 thisHardware (scaled % src) src % 2 ^ 24 := by
  have hn : scaled / src < 2 ^ 4 := Nat.lt_of_le_of_lt h (by decide)
  refine ⟨rfl, ?_, ?_⟩ <;>
    simp only [divisionOf, thisHardware_nBits, thisHardware_kBits, BitVec.toNat_ofNat, Nat.mod_mod]
  exact Nat.mod_eq_of_lt hn

theorem divideBy_eq_some {p : Params} {pre : Bool} {scaled src : Nat} {d : PllDivision} :
    divideBy p pre scaled src = some d ↔
      p.nMin ≤ scaled / src ∧ scaled / src ≤ p.nMax ∧ divisionOf p pre scaled src = d := by
  unfold divideBy
  split
  · simp only [reduceCtorEq, false_iff]
    omega
  · simp only [Option.some.injEq]
    constructor
    · exact fun h => ⟨by omega, by omega, h⟩
    · exact fun h => h.2.2

/-- Everything `solve` can answer: a division by the effective source, which is the source, halved at most once and
exactly when the first quotient is below `N_MIN`; it is positive and its quotient is in range. -/
theorem solve_eq_some {p : Params} {src tgt : Nat} {d : PllDivision} :
    solve p src tgt = some d ↔
      ∃ pre eff, eff = (if pre then src / 2 else src) ∧ 0 < eff ∧ (pre = true ↔ tgt * p.vcoScale / src < p.nMin) ∧
        p.nMin ≤ tgt * p.vcoScale / eff ∧ tgt * p.vcoScale / eff ≤ p.nMax ∧
        divisionOf p pre (tgt * p.vcoScale) eff = d := by
  simp only [solve]
  by_cases h0 : src = 0
  · subst h0
    simp only [if_true, reduceCtorEq, false_iff]
    rintro ⟨pre, eff, rfl, h, -⟩
    cases pre <;> simp at h
  · by_cases h1 : tgt * p.vcoScale / src < p.nMin
    · by_cases h2 : src / 2 = 0
      · simp only [h0, h1, h2, if_true, if_false, reduceCtorEq, false_iff]
        rintro ⟨pre, eff, rfl, h, hp, -⟩
        simp [hp.mpr trivial] at h
      · simp only [h0, h1, h2, if_true, if_false, divideBy_eq_some]
        constructor
        · rintro ⟨a, b, c⟩
          exact ⟨true, src / 2, rfl, by omega, by simp, a, b, c⟩
        · rintro ⟨pre, eff, rfl, -, hp, a, b, c⟩
          obtain rfl := hp.mpr trivial
          exact ⟨a, b, c⟩
    · simp only [h0, h1, if_false, divideBy_eq_some]
      constructor
      · rintro ⟨a, b, c⟩
        exact ⟨false, src, rfl, by omega, by simp, a, b, c⟩
      · rintro ⟨pre, eff, rfl, -, hp, a, b, c⟩
        cases pre with
        | false => exact ⟨a, b, c⟩
        | true => exact absurd (hp.mp rfl) (by simp)

/-- `solve_eq_some` on this hardware, with the numbers of R90 and the fields of the division. -/
theorem solve_thisHardware_eq_some {src tgt : Nat} {d : PllDivision} (h : solve thisHardware src tgt = some d) :
    ∃ eff, eff = (if d.preDivide then src / 2 else src) ∧ 0 < eff ∧ (d.preDivide = true ↔ tgt * 4 / src < 6) ∧
      6 ≤ tgt * 4 / eff ∧ tgt * 4 / eff ≤ 12 ∧ d.n.toNat = tgt * 4 / eff ∧
      d.k.toNat = pllK25 thisHardware (tgt * 4 % eff) eff % 2 ^ 24 := by
  obtain ⟨pre, eff, he, hp, hpre, hmin, hmax, rfl⟩ := solve_eq_some.mp h
  have hd := divisionOf_thisHardware (pre := pre) hmax
  exact ⟨eff, he, hp, hpre, hmin, hmax, hd.2⟩

/-- `solve` on this hardware, written out (R90). -/
theorem solve_thisHardware (src tgt : Nat) :
    solve thisHardware src tgt =
      if src = 0 then none
      else if tgt * 4 / src < 6 then
        if src / 2 = 0 then none else divideBy thisHardware true (tgt * 4) (src / 2)
      else divideBy thisHardware false (tgt * 4) src := rfl

/-- `divideBy` fails on this hardware exactly outside 6 to 12 (R92). -/
theorem divideBy_thisHardware_ne_none {pre : Bool} {scaled src : Nat} :
    divideBy thisHardware pre scaled src ≠ none ↔ 6 ≤ scaled / src ∧ scaled / src ≤ 12 := by
  rw [Option.ne_none_iff_exists']
  constructor
  · rintro ⟨d, h⟩
    exact ⟨(divideBy_eq_some.mp h).1, (divideBy_eq_some.mp h).2.1⟩
  · exact fun h => ⟨_, divideBy_eq_some.mpr ⟨h.1, h.2, rfl⟩⟩

/-! ### LOOKUP -/

/-- Everything `lookup` can answer: one of the two targets, and a row of the map or the fallback row. -/
theorem lookup_cases (p : Params) (rate : Nat) :
    ((lookup p rate).targetHz = p.target44k1 ∨ (lookup p rate).targetHz = p.target48k) ∧
    ((lookup p rate).row ≤ 10 ∨ (lookup p rate).row = p.fallbackRow) := by
  unfold lookup
  cases h : rowOf rate with
  | none => simp
  | some i =>
    refine ⟨?_, .inl ?_⟩
    · simp only [targetOf]
      split <;> simp
    · unfold rowOf at h
      split at h <;> simp_all <;> omega

end Sys2Proof.Machine
end

