-- ==== Sys2Proof/Machine/Assembly.lean ====
section
/-! DEFINITION. The spec's assembly syntax (30_encoding.md R77): one command a line, its mnemonic in capitals, then
`name=value` operands in the order of the format, separated by commas (DESIGN CHOICE where R77 is silent, assumption 21,
safe). -/

namespace Sys2Proof.Machine

/-- The value of a digit, hexadecimal ones included. -/
def digitOf (c : Char) : Option Nat :=
  if '0' ≤ c ∧ c ≤ '9' then some (c.toNat - 48)
  else if 'A' ≤ c ∧ c ≤ 'F' then some (c.toNat - 55)
  else if 'a' ≤ c ∧ c ≤ 'f' then some (c.toNat - 87)
  else none

/-- Digits of a base, most significant first, after the value read so far. -/
def digitsFrom (base acc : Nat) : List Char → Option Nat
  | [] => some acc
  | c :: cs =>
    match digitOf c with
    | some d => if d < base then digitsFrom base (base * acc + d) cs else none
    | none => none

/-- A number: decimal unless it is prefixed `0x` (R77). -/
def numberOf : List Char → Option Nat
  | [] => none
  | ['0', 'x'] => none
  | '0' :: 'x' :: ds => digitsFrom 16 0 ds
  | ds => digitsFrom 10 0 ds

/-- The text without the blanks before and after it. -/
def trimmed (cs : List Char) : List Char :=
  ((cs.dropWhile (· = ' ')).reverse.dropWhile (· = ' ')).reverse

/-- The parts of a text between commas. -/
def splitCommas : List Char → List (List Char)
  | [] => [[]]
  | c :: cs =>
    match splitCommas cs with
    | [] => [[c]]
    | p :: ps => if c = ',' then [] :: p :: ps else (c :: p) :: ps

/-- One operand, `name=value`. -/
def operandOf (cs : List Char) : Option (String × List Char) :=
  match cs.dropWhile (· ≠ '=') with
  | _ :: value => some (String.ofList (trimmed (cs.takeWhile (· ≠ '='))), trimmed value)
  | [] => none

/-- The operands of a line, none where one of them has no value. -/
def operandsOfLine (cs : List Char) : Option (List (String × List Char)) :=
  if trimmed cs = [] then some [] else (splitCommas cs).mapM operandOf

/-- An enumeration operand: a name, or the number of its code. -/
def enumCode (names : List (String × Nat)) (value : List Char) : Option Nat :=
  match names.lookup (String.ofList value) with
  | some n => some n
  | none => numberOf value

/-- A code that fits a field of `w` bits. -/
def codeOf (w : Nat) (n : Option Nat) : Option (BitVec w) :=
  match n with
  | some k => if k < 2 ^ w then some (BitVec.ofNat w k) else none
  | none => none

/-- The role operand (R64, R77). -/
def roleOperand (v : List Char) : Option (BitVec 2) :=
  codeOf 2 (enumCode [("ControllerIsMaster", 0), ("ControllerIsSlave", 1)] v)

/-- The interface-standard operand (R65, R77). -/
def stdOperand (v : List Char) : Option (BitVec 3) :=
  codeOf 3 (enumCode [("I2S", 0), ("LeftJustified", 1), ("RightJustified", 2), ("DSP_A", 3), ("DSP_B", 4)] v)

/-- The clock-polarity operand (R65, R77). -/
def polOperand (v : List Char) : Option (BitVec 3) :=
  codeOf 3 (enumCode [("Normal", 0), ("BothInverted", 1), ("BitClockInverted", 2), ("FrameInverted", 3)] v)

/-- The duplex operand, 0 or 1 (R77). -/
def duplexOperand (v : List Char) : Option Bool :=
  match numberOf v with
  | some 0 => some false
  | some 1 => some true
  | _ => none

/-- The command of a mnemonic and its operands, in the order of the format; an omitted `duplex` is 0 (R77). -/
def commandOf (mnemonic : String) (ops : List (String × List Char)) : Option Instr :=
  match mnemonic, ops with
  | "SOLVE", [("src", a), ("tgt", b)] => do return .solve (← numberOf a) (← numberOf b)
  | "LOOKUP", [("rate", a)] => do return .lookup (← numberOf a)
  | "NEGOTIATE", [("role", r)] => do return .negotiate (← roleOperand r)
  | "INIT", [] => some .init
  | "CFGCLK", [("rate", a), ("width", w), ("role", r)] => do
    return .cfgclk (← roleOperand r) (← numberOf w) false (← numberOf a)
  | "CFGCLK", [("rate", a), ("width", w), ("role", r), ("duplex", d)] => do
    return .cfgclk (← roleOperand r) (← numberOf w) (← duplexOperand d) (← numberOf a)
  | "CFGFMT", [("width", w), ("role", r), ("std", s), ("pol", p)] => do
    return .cfgfmt (← roleOperand r) (← numberOf w) (← stdOperand s) (← polOperand p)
  | "ACTIVATE", [] => some .activate
  | "MUTE", [] => some .mute
  | "UNMUTE", [] => some .unmute
  | "SHUTDOWN", [] => some .shutdown
  | "FAULT", [] => some .fault
  | "REMOVE", [] => some .remove
  | _, _ => none

/-- The command a line of assembly stands for; none where the line is not one, or a number does not fit its field. -/
def assemble (line : String) : Option Instr := do
  let cs := trimmed line.toList
  let ops ← operandsOfLine (cs.dropWhile (· ≠ ' '))
  let i ← commandOf (String.ofList (cs.takeWhile (· ≠ ' '))) ops
  if WellFormed i then some i else none

end Sys2Proof.Machine
end

