-- ==== Sys2Proof/Tests/Slice0.lean ====
section
/-! SUPPORT. Tests on fixed values, their expected results taken from spec/ (the rule or the part of 95_test_vectors.md
is named at each), and for every statement with hypotheses a witness that meets them all. -/

open Sys2Proof Sys2Proof.Machine

namespace Sys2Proof.Tests

/-! ### Well-formedness: an ill-formed term for each check (R61, R63) -/

theorem test_wf_solve_source_too_wide : WellFormed (.solve 4294967296 1) = false := by decide
theorem test_wf_solve_target_too_wide : WellFormed (.solve 1 4294967296) = false := by decide
theorem test_wf_lookup_rate_too_wide : WellFormed (.lookup 4294967296) = false := by decide
theorem test_wf_cfgclk_width_too_wide : WellFormed (.cfgclk 0 256 false 8000) = false := by decide
theorem test_wf_cfgclk_rate_too_wide : WellFormed (.cfgclk 0 16 false 4294967296) = false := by decide
theorem test_wf_cfgfmt_width_too_wide : WellFormed (.cfgfmt 0 256 0 0) = false := by decide
theorem test_wf_largest_operands :
    WellFormed (.solve 4294967295 4294967295) = true ∧ WellFormed (.cfgclk 3 255 true 4294967295) = true := by decide

/-! ### Decoding: a word of each command, written out from R61 and R66 -/

/-- B = 2 (cw[95:64]), A = 1 (cw[63:32]), op = 1; part 2.1 has the word. -/
theorem test_decode_solve : decode 0x00000002_00000001_00000001 = .ok (.solve 1 2) := by decide
/-- A = 97000, op = 2; S4. -/
theorem test_decode_lookup : decode 0x00000000_00017AE8_00000002 = .ok (.lookup 97000) := by decide
/-- role = 2 in cw[5:4], op = 3; part 2.3: legal, and rejected only by the command. -/
theorem test_decode_negotiate : decode 0x00000000_00000000_00000023 = .ok (.negotiate 2) := by decide
theorem test_decode_init : decode 0x00000000_00000000_00000004 = .ok .init := by decide
/-- role = 1, width = 16 in cw[13:6], duplex = cw[20], A = 44100, op = 5; part 2.4. -/
theorem test_decode_cfgclk : decode 0x00000000_0000AC44_00100415 = .ok (.cfgclk 1 16 true 44100) := by decide
/-- width = 20, std = 4 in cw[16:14], pol = 3 in cw[19:17], op = 6; part 2.6. -/
theorem test_decode_cfgfmt : decode 0x00000000_00000000_00070506 = .ok (.cfgfmt 0 20 4 3) := by decide
theorem test_decode_activate : decode 0x00000000_00000000_00000007 = .ok .activate := by decide
theorem test_decode_mute : decode 0x00000000_00000000_00000008 = .ok .mute := by decide
theorem test_decode_unmute : decode 0x00000000_00000000_00000009 = .ok .unmute := by decide
theorem test_decode_shutdown : decode 0x00000000_00000000_0000000A = .ok .shutdown := by decide
theorem test_decode_fault : decode 0x00000000_00000000_0000000B = .ok .fault := by decide
theorem test_decode_remove : decode 0x00000000_00000000_0000000C = .ok .remove := by decide

/-- The reserved operation codes; the all-zero word is illegal (R67). -/
theorem test_decode_reserved :
    [0x0, 0xD, 0xE, 0xF].map decode = List.replicate 4 (.error .reservedOpcode) := by decide
/-- Bits a format does not use: `role` in INIT and in SOLVE, cw[21] and `std` in CFGCLK, `duplex` and `A` in CFGFMT,
`B` in LOOKUP (parts 2.2 and 2.4). -/
theorem test_decode_unused_bits :
    [0x00000000_00000000_00000014, 0x01588800_00B71B00_00000011, 0x00000000_0000AC44_00200415,
      0x00000000_0000AC44_00004415, 0x00000000_00000000_00100416, 0x00000000_00000001_00000416,
      0x00000001_0000BB80_00000002].map decode = List.replicate 7 (.error .unusedBitSet) := by decide
/-- R79, and the reading of a word as the opcode table numbers its bits. -/
theorem test_encode_worked :
    encode (.cfgclk 1 16 false 44100) = 0x00000000_0000AC44_00000415 ∧
      encode (.cfgfmt 0 24 1 2) = 0x00000000_00000000_00044606 ∧
      decodeTableWord 96 0x00000000_0000AC44_00000415 = some (.cfgclk 1 16 false 44100) := by decide
/-- R77, R79. -/
theorem test_assemble :
    assemble "CFGCLK rate=44100, width=16, role=ControllerIsSlave, duplex=0" = some (.cfgclk 1 16 false 44100) ∧
      assemble "CFGFMT width=24, role=ControllerIsMaster, std=LeftJustified, pol=BitClockInverted" =
        some (.cfgfmt 0 24 1 2) := by decide

/-! ### One step of the machine -/

/-- The next state of a step that has one. -/
def nextOf : Result → Option State
  | .next t => some t
  | .fault _ => none
  | .refused _ => none

/-- The reference instance between two commands. -/
def idleAt (st : SeqState) (pc : BitVec 8) : State := { State.reset with st, seqPc := pc }

/-- The reference instance with a command in flight, `pc` steps of whose plan are done, `t` being the value last read;
every register operation completes, reads giving what the codec's registers hold. -/
def running (st dest : SeqState) (plan : List PlanStep) (pc : BitVec 8) (t : Word16) : State :=
  { State.reset with
    st, seqPc := pc, flight := some { plan, t, dest },
    answers := List.replicate 8 (.completes none), trace := List.replicate pc.toNat (.dl 0) }

/-- What a command word does to the reference instance: `f` of the state after the step. -/
def afterWord {α : Type} (f : State → α) (st : SeqState) (pc : BitVec 8) (w : Nat) : Option α :=
  (nextOf (step ((idleAt st pc).withFetchWord 96 w))).map f

/-- What a plan step does: the trace's last event and the response. -/
def lastEvent (s : State) : Option (Option Event × Option RespWord) :=
  (nextOf (step s)).map fun t => (t.trace.getLast?, t.response)

/-- The plan a word starts, and the state it is run in. -/
def planStarted (s : State) : SeqState × Option (List PlanStep) := (s.st, s.flight.map Flight.plan)

/-- Part 2.1: the response words of `SOLVE src=12000000, tgt=22579200` in Reset and `SOLVE src=7, tgt=10` in Active. -/
theorem test_solve_answers :
    afterWord State.response .reset 0 0x01588800_00B71B00_00000001 = some (some 0x00000000_0786C227_00000000) := by
  decide
theorem test_solve_unsupported :
    afterWord State.response .active 11 0x0000000A_00000007_00000001 = some (some 0x00000000_00000000_000002E1) := by
  decide
/-- Part 2.2: `LOOKUP rate=48000` in Off, and the fallback of 97000. -/
theorem test_lookup_row :
    afterWord State.response .off 10 0x00000000_0000BB80_00000002 = some (some 0x00BB8000_00000008_000002B8) := by
  decide
theorem test_lookup_fallback :
    afterWord State.response .reset 0 0x00000000_00017AE8_00000002 = some (some 0x00AC4400_00000007_00000000) := by
  decide
/-- Part 2.3. -/
theorem test_negotiate_slave :
    afterWord State.response .reset 0 0x00000000_00000000_00000013 = some (some 0x00000000_00000002_00000000) := by
  decide
theorem test_negotiate_unrecognised :
    afterWord State.response .reset 0 0x00000000_00000000_00000023 = some (some 0x00000000_00000000_00000005) := by
  decide
/-- R130's example, and part 2.7's rejection in Initialized (R184). -/
theorem test_init_starts :
    afterWord planStarted .reset 0 0x4 = some (.reset, some [.write 0x00 0x0000, .delay 200]) := by decide
theorem test_init_rejected :
    afterWord State.response .initialized 2 0x4 = some (some 0x00000000_00000000_0000008C) := by decide
/-- R132's example: `n` = 7 goes to bits 3 to 0 of 0x01, `K` = 0x86C227 to 0x02 and 0x03, row 7's code to 0x04. -/
theorem test_cfgclk_starts :
    afterWord planStarted .initialized 2 0x00000000_0000AC44_00000415 =
      some (.initialized, some [.read 0x01, .writeMerged 0x01 0xFFE0 0x0007, .write 0x02 0x0086, .write 0x03 0xC227,
        .write 0x04 0x0307]) := by decide
/-- Part 2.5: the duplex guard completes at once with `seq_pc` 0. -/
theorem test_cfgclk_duplex :
    afterWord State.response .initialized 2 0x00000000_0000BB80_00100415 =
      some (some 0x00000000_00000000_00000010) := by decide
/-- Part 2.6: `CFGFMT width=20, role=ControllerIsMaster, std=DSP_B, pol=FrameInverted` writes 0x0037; std = 5 is
rejected. -/
theorem test_cfgfmt_starts :
    afterWord planStarted .clockConfigured 5 0x00000000_00000000_00070506 =
      some (.clockConfigured, some [.write 0x05 0x0037]) := by decide
theorem test_cfgfmt_unrecognised :
    afterWord State.response .clockConfigured 1 0x00000000_00000000_00014506 =
      some (some 0x00000000_00000000_00000052) := by decide
/-- R141's example, steps 4 and 10 of the plan. -/
theorem test_activate_power :
    lastEvent (running .formatConfigured .active (activatePlan capRef) 4 0x0200) =
      some (some (.wr 0x07 0x0380), none) := by decide
theorem test_activate_unmutes :
    lastEvent (running .formatConfigured .active (activatePlan capRef) 10 0x0108) =
      some (some (.wr 0x08 0x0100), some 0x00000000_00000000_000002E0) := by decide
/-- Part 2.7: other bits of the register survive. -/
theorem test_mute :
    lastEvent (running .active .muted (mutePlan capRef) 1 0xFFF7) =
      some (some (.wr 0x08 0xFFFF), some 0x00000000_00000000_000000A8) := by decide
theorem test_unmute :
    lastEvent (running .muted .active (unmutePlan capRef) 1 0xFFFF) =
      some (some (.wr 0x08 0xFFF7), some 0x00000000_00000000_000000A0) := by decide
/-- R148's example, its start through ShuttingDown and its last step. -/
theorem test_shutdown_starts :
    (afterWord planStarted .muted 2 0xA).map Prod.fst = some .shuttingDown := by decide
theorem test_shutdown_ends :
    lastEvent (running .shuttingDown .off (shutdownPlan capRef) 9 0x00C1) =
      some (some (.wr 0x06 0x0001), some 0x00000000_00000000_000002B8) := by decide
/-- R152 and R154, from Off and from Active. -/
theorem test_fault :
    afterWord State.response .off 10 0xB = some (some 0x00000000_00000000_00000000) := by decide
theorem test_remove :
    afterWord State.response .active 11 0xC = some (some 0x00000000_00000000_00000038) := by decide
/-- Part 2.4: an illegal word, `st` and `seq_pc` returned unchanged. -/
theorem test_illegal_word :
    afterWord State.response .active 11 0x0 = some (some 0x00000000_00000000_000002E5) := by decide
/-- Part 2.7's sweep: the sixth operation of ACTIVATE fails at plan index 7. -/
theorem test_bus_failure :
    lastEvent { running .formatConfigured .active (activatePlan capRef) 7 0x0380 with answers := [.fails []] } =
      some (some (.fail 7), some 0x00000000_00000000_000001C3) := by decide
/-- R104's example, and S2's row {true, 12, 0xFFFFFF}. -/
theorem test_pll_image :
    (0xABC8 &&& 0xFFE0) ||| place 0xFFE0 ⟨false, 7, 0x86C227⟩ = 0xABC7 ∧
      decodePll 0xFFE0 0xABDC 0x00FF 0xFFFF = ⟨true, 12, 0xFFFFFF⟩ := by decide
/-- Part 2.1's last rows: the exact tie, the fraction that rounds up to 2^24, the target above 2^30. -/
theorem test_solve_corners :
    solve thisHardware 134217728 201326593 = some ⟨false, 6, 1⟩ ∧
      solve thisHardware 33554435 58720261 = some ⟨false, 6, 0⟩ ∧
      solve thisHardware 4294967295 4294967295 = some ⟨true, 8, 0⟩ ∧
      solve thisHardware 0 5 = none ∧ solve thisHardware 1 1 = none := by decide
/-- R6's parameters are read from the configuration: by R90 with `N_MIN` = 5 the quotient 5 is in range unhalved (S3 has
it halved), and an instance whose widths, rows or addresses do not fit its `CAP` is not well formed. -/
theorem test_parameters :
    solve { thisHardware with nMin := 5 } 11289600 14112000 = some ⟨false, 5, 0⟩ ∧
      solve thisHardware 11289600 14112000 = some ⟨true, 10, 0⟩ ∧
      capWf { State.reset.cfg with kBits := 23 } = false ∧ capWf { State.reset.cfg with rows := 12 } = false ∧
      addrsWf { thisHardware with addrBits := 3 } capRef = false := by decide
/-- A hardware reset between two steps of a plan, at the step it waits for and not before (R210, R221). -/
theorem test_reset_in_flight :
    (nextOf (step { running .active .muted (mutePlan capRef) 1 0 with inputs := [.hardwareReset .clk12M288 1] })).map
        (fun t => (t.st, t.cfg.mclkClass, t.flight)) = some (.reset, .clk12M288, none) ∧
      (nextOf (step { running .active .muted (mutePlan capRef) 1 0 with inputs := [.hardwareReset .clk12M288 2] })).map
        (fun t => (t.st, t.cfg.mclkClass)) = some (.muted, .clk12M) := by decide

/-! ### Witnesses: a state and operands that meet every hypothesis of a statement -/

/-- The reference instance with an ill-formed `CAP`: the mute bit set is empty. -/
def illFormed (st : SeqState) : State := { idleAt st 0 with cfg := instanceOf .clk12M { capRef with bitMute := 0 } }

/-- The reference instance, idle, with answers for eight register operations. -/
def ready (st : SeqState) : State := { idleAt st 0 with answers := List.replicate 8 (.completes none) }

/-- The reference instance, idle, with one thing presented. -/
def presented (st : SeqState) (x : HostInput) : State := { idleAt st 0 with inputs := [x] }

/-- The reference instance about to do one plan step. -/
def doing (p : PlanStep) (a : BusAnswer) : State :=
  { idleAt .active 0 with flight := some { plan := [p], t := 0, dest := .muted }, answers := [a] }

theorem noReset_of_nil {s : State} (h : s.inputs = []) : NoReset s := by
  intro strap after rest hc
  rw [h] at hc
  cases hc

theorem witness_DecodeOfEncodeIsTheCommand :
    WellFormed (.cfgclk 3 255 true 4294967295) = true ∧ WellFormed (.solve 0 4294967295) = true := by decide

theorem witness_EncodeOfDecodeIsTheWord :
    decode 0xFFFFFFFF_FFFFFFFF_00000001 = .ok (.solve 4294967295 4294967295) ∧
      decode 0x00000000_FFFFFFFF_00103FF5 = .ok (.cfgclk 3 255 true 4294967295) := by decide

/-- Each side of each clause is met by some word. -/
theorem witness_DecodingIsTheMatchMaskTable :
    (opcodeRow .cfgfmt).holds 0x00000000_00000000_000FFFF6 = true ∧ (opcodeRow .cfgfmt).holds 0x00100006 = false ∧
      ∀ op, (opcodeRow op).holds 0 = false := by
  refine ⟨by decide, by decide, fun op => ?_⟩
  cases op <;> decide

theorem witness_IllegalWordsAreReservedOpsAndUnusedBits :
    decode 0x00000000_00000000_0000000D = .error .reservedOpcode ∧
      decode 0x80000000_00000000_00000002 = .error .unusedBitSet := by decide

theorem witness_StepRunsTheDecodedCommand :
    Idle (presented .off (.command 0x0000000B)) ∧
      (presented .off (.command 0x0000000B)).inputs = [.command 0x0000000B] ∧ decode 0x0000000B = .ok .fault := by
  decide

/-- An illegal word, and operands for each of the other clauses. -/
theorem witness_IllegalCommandsChangeNothing :
    Idle (presented .active (.command 0)) ∧ (presented .active (.command 0)).inputs = [.command 0] ∧
      (∀ op, (opcodeRow op).holds 0 = false) ∧ 2 ≤ (2 : BitVec 2).toNat ∧
      validWidth (presented .active (.command 0)).cfg.cap 32 = false := by
  refine ⟨rfl, rfl, fun op => ?_, by decide, by decide⟩
  cases op <;> decide

theorem witness_IdleBlockHoldsItsState : Idle State.reset ∧ State.reset.inputs = [] := by decide

/-- Between two commands, and in flight exactly when the plan has done the steps the reset waits for. -/
theorem witness_HardwareResetSamplesTheStrap :
    (presented .active (.hardwareReset .clk12M288 5)).inputs = [.hardwareReset .clk12M288 5] ∧
      ((presented .active (.hardwareReset .clk12M288 5)).flight ≠ none → 5 ≤ 0) ∧
      (running .active .muted (mutePlan capRef) 1 0).flight ≠ none ∧
      1 ≤ (running .active .muted (mutePlan capRef) 1 0).seqPc.toNat := by decide

theorem witness_CommandInFlightIsRefused :
    (running .active .muted (mutePlan capRef) 1 0).flight =
      some { plan := mutePlan capRef, t := 0, dest := .muted } := by decide

/-- One state for each clause. -/
theorem witness_IllFormedCapIsRefused :
    Idle (illFormed .reset) ∧ capWf (illFormed .reset).cfg = false ∧
      validWidth (illFormed .initialized).cfg.cap 24 = true ∧ roleOf 1 = some .controllerIsSlave ∧
      (cfgclkPlan (illFormed .initialized).cfg .controllerIsSlave false 96000).map List.length = some 5 ∧
      cfgfmtValue (illFormed .clockConfigured).cfg.cap 1 24 4 3 ≠ none := by decide

theorem witness_NoErrorStopsTheBlock : capWf State.reset.cfg = true := by decide

theorem witness_ConfigurationIsConstant :
    step State.reset = .next State.reset ∧
      (nextOf (step (presented .off (.hardwareReset .clk12M288 0)))).map (fun t => t.cfg.mclkClass) =
        some .clk12M288 :=
  ⟨rfl, by decide⟩

theorem witness_ReplaceWriteStoresTheWholeValue :
    (doing (.write 5 7) (.completes none)).flight = some { plan := [.write 5 7], t := 0, dest := .muted } ∧
      resetDue (doing (.write 5 7) (.completes none)) = none ∧
      answerAt (doing (.write 5 7) (.completes none)) 0 = .completes none ∧ (5 : Addr) ≠ capRef.addrReset := by decide

/-- The last two of 256 steps a counter of eight bits can name. -/
theorem witness_MergeKeepsThePreservedBits :
    let plan := List.replicate 254 (.delay 1) ++ mutePlan capRef
    let s := running .active .muted plan 254 0
    s.flight = some { plan, t := 0, dest := .muted } ∧ plan[254]? = some (.read 8) ∧
      plan[255]? = some (.writeMerged 8 0xFFF7 0x0008) ∧ 254 + 1 < 256 ∧ NoReset s ∧
      answerAt s 0 = .completes none ∧ answerAt s 1 = .completes none ∧ (8 : Addr) ≠ capRef.addrReset ∧
      (0x0008 : Word16) &&& 0xFFF7 = 0 :=
  ⟨rfl, rfl, rfl, by decide, noReset_of_nil rfl, rfl, rfl, by decide, by decide⟩

theorem witness_DelayCannotFail :
    (doing (.delay 10) (.fails [])).flight = some { plan := [.delay 10], t := 0, dest := .muted } ∧
      resetDue (doing (.delay 10) (.fails [])) = none := by decide

/-- A failed read, and a failed write that changed a register. -/
theorem witness_FailedOperationAborts :
    isRegisterOp (.read 8) = true ∧ answerAt (doing (.read 8) (.fails [])) 0 = .fails [] ∧
      isRegisterOp (.write 5 7) = true ∧ answerAt (doing (.write 5 7) (.fails [(5, 1)])) 0 = .fails [(5, 1)] ∧
      resetDue (doing (.write 5 7) (.fails [(5, 1)])) = none := by decide

/-- For each clause: a write, the chip reset write, a read, a delay. -/
theorem witness_PlainRegisterFilePremise :
    PlainRegisterFile 1 (doing (.write 5 7) (.completes none)) ∧ writtenAddr (.write 5 7) = some 5 ∧
      (5 : Addr) ≠ capRef.addrReset ∧
      PlainRegisterFile 1 (doing (.write capRef.addrReset 0) (.completes none)) ∧
      PlainRegisterFile 1 (doing (.read 8) (.completes none)) ∧
      resetDue (doing (.delay 10) (.completes none)) = none ∧ writtenAddr (.delay 10) = none := by decide

theorem witness_OnlyTheAddressedRegisterChanges :
    let s := running .formatConfigured .active (activatePlan capRef) 4 0x0200
    BlockInv s = true ∧ resetDue s = none ∧ (∃ t, step s = .next t) ∧ answerAt s 0 = .completes none ∧
      (activatePlan capRef)[4]? = some (.writeMerged 7 0xFE7F 0x0180) ∧ BlockInv State.reset = true ∧
      Idle State.reset := by
  refine ⟨by decide, by decide, ⟨_, rfl⟩, by decide, by decide, by decide, by decide⟩

theorem witness_ChecksIssueNoRegisterOperation : ∃ t, exec .fault State.reset = .next t := ⟨_, rfl⟩

theorem witness_SolveAnswersTheDivision :
    Idle State.reset ∧ solve State.reset.cfg.toParams 1 2 = some ⟨false, 8, 0⟩ ∧
      solve State.reset.cfg.toParams 7 10 = none := by decide

/-- Without and with halving, an even source at each first quotient, and a fraction that does not overflow. -/
theorem witness_SolveOperandsThatSucceed :
    solve thisHardware 12000000 18000000 = some ⟨false, 6, 0⟩ ∧
      solve thisHardware 12000000 9000000 = some ⟨true, 6, 0⟩ ∧
      4 * 24576000 / 19200000 = 5 ∧ 4 * 12288000 / 12000000 = 4 ∧ 4 * 9000000 / 12000000 = 3 ∧
      4 * 8999999 / 12000000 = 2 ∧ solve thisHardware 12000000 17999999 = some ⟨true, 11, 0xFFFFF5⟩ ∧
      pllK25 thisHardware (4 * 17999999 % 6000000) 6000000 < 2 ^ 24 := by decide

theorem witness_SolveDivisionIdentity : solve thisHardware 12000000 38999999 = some ⟨false, 12, 0xFFFFFA⟩ := by decide

theorem witness_SolveRoundsHalfUp :
    33554434 < 33554435 ∧ solve thisHardware 134217728 201326593 = some ⟨false, 6, 1⟩ := by decide

/-- At the overflow, and at the least source. -/
theorem witness_SolveFractionRange :
    33554434 < 33554435 ∧ pllK25 thisHardware 33554434 33554435 = 2 ^ 24 ∧ 0 < 1 := by decide

theorem witness_LookupAnswersTheTable : Idle State.reset ∧ OnThisHardware State.reset := by decide

theorem witness_NegotiateAnswersComplementaryRoles : Idle (idleAt .off 10) := by decide

theorem witness_PureCommandsReadAndWriteNoState : 
    Idle (idleAt .shuttingDown 3) ∧ Idle (illFormed .active) ∧
      (idleAt .shuttingDown 3).cfg.toParams = (illFormed .active).cfg.toParams := by decide

theorem witness_InitResetsTheChipAndWaits :
    Idle (ready .reset) ∧ (ready .reset).st = .reset ∧ capWf (ready .reset).cfg = true ∧ NoReset (ready .reset) ∧
      BusCompletes 1 (ready .reset) :=
  ⟨by decide, by decide, by decide, noReset_of_nil rfl, by decide⟩

theorem witness_CfgclkProgramsPllThenDivider :
    let s := ready .initialized
    Idle s ∧ s.st = .initialized ∧ capWf s.cfg = true ∧ validWidth s.cfg.cap 16 = true ∧
      solve s.cfg.toParams (mclkHz s.cfg) (s.cfg.pllTargetFactor * (lookup s.cfg.toParams 44100).targetHz) =
        some ⟨false, 7, 0x86C227⟩ ∧ NoReset s ∧ BusCompletes 5 s :=
  ⟨by decide, by decide, by decide, by decide, by decide, noReset_of_nil rfl, by decide⟩

theorem witness_CfgclkSlaveWritesTheDividerOnly :
    let s := ready .initialized
    Idle s ∧ s.st = .initialized ∧ capWf s.cfg = true ∧ validWidth s.cfg.cap 24 = true ∧ NoReset s ∧
      BusCompletes 1 s :=
  ⟨by decide, by decide, by decide, by decide, noReset_of_nil rfl, by decide⟩

theorem witness_DuplexGuardSkipsTheClockStep :
    let s := idleAt .initialized 2
    Idle s ∧ s.st = .initialized ∧ (1 : BitVec 2).toNat < 2 ∧ validWidth s.cfg.cap 20 = true := by decide

theorem witness_CfgfmtWritesTheFormatValue :
    let s := ready .clockConfigured
    Idle s ∧ s.st = .clockConfigured ∧ capWf s.cfg = true ∧ roleOf 1 = some .controllerIsSlave ∧
      stdOf 4 = some .dspB ∧ polOf 3 = some .frameInverted ∧ fmtWidthOf s.cfg.cap 24 = some 0x0008 ∧ NoReset s ∧
      BusCompletes 1 s :=
  ⟨by decide, by decide, by decide, by decide, by decide, by decide, by decide, noReset_of_nil rfl, by decide⟩

theorem witness_ActivatePowersUpInOrder :
    let s := ready .formatConfigured
    Idle s ∧ s.st = .formatConfigured ∧ capWf s.cfg = true ∧ NoReset s ∧ BusCompletes 8 s :=
  ⟨by decide, by decide, by decide, noReset_of_nil rfl, by decide⟩

theorem witness_MuteSetsTheMuteBit :
    let s := ready .active
    Idle s ∧ s.st = .active ∧ capWf s.cfg = true ∧ NoReset s ∧ BusCompletes 2 s :=
  ⟨by decide, by decide, by decide, noReset_of_nil rfl, by decide⟩

theorem witness_UnmuteClearsTheMuteBit :
    let s := ready .muted
    Idle s ∧ s.st = .muted ∧ capWf s.cfg = true ∧ NoReset s ∧ BusCompletes 2 s :=
  ⟨by decide, by decide, by decide, noReset_of_nil rfl, by decide⟩

/-- Both From states. -/
theorem witness_ShutdownMutesThenPowersDown :
    let s := ready .muted
    Idle s ∧ s.st = .muted ∧ (ready .active).st = .active ∧ capWf s.cfg = true ∧ NoReset s ∧ BusCompletes 8 s :=
  ⟨by decide, by decide, by decide, by decide, noReset_of_nil rfl, by decide⟩

theorem witness_FaultReturnsToReset :
    Idle (idleAt .off 10) ∧ (idleAt .off 10).st = .off ∧
      (nextOf (exec .fault (idleAt .off 10))).map State.st = some .reset ∧
      (doing (.read 8) (.fails [])).flight = some { plan := [.read 8], t := 0, dest := .muted } ∧
      resetDue (doing (.read 8) (.fails [])) = none ∧ answerAt (doing (.read 8) (.fails [])) 0 = .fails [] := by decide

theorem witness_RemoveGoesToOff : Idle (idleAt .active 11) := by decide

/-- A state outside each clause's From states, and operands that pass CFGCLK's own check. -/
theorem witness_UnlistedPairsAreIllegalTransitions :
    Idle (idleAt .off 0) ∧ (idleAt .off 0).st ≠ .reset ∧ (idleAt .off 0).st ≠ .initialized ∧
      (idleAt .off 0).st ≠ .clockConfigured ∧ (idleAt .off 0).st ≠ .formatConfigured ∧
      (idleAt .off 0).st ≠ .active ∧ (idleAt .off 0).st ≠ .muted ∧ (1 : BitVec 2).toNat < 2 ∧
      validWidth (idleAt .off 0).cfg.cap 16 = true := by decide

/-- One word for each of the four statuses: UnsupportedRatio, InvalidFormatSelector, IllegalTransition,
IllegalCommand. -/
theorem witness_StatusOnlyErrorsWriteNoState :
    ((nextOf (step (presented .off (.command 1)))).bind State.response).map respStatus = some 1 ∧
      ((nextOf (step (presented .clockConfigured (.command 0xFC406)))).bind State.response).map respStatus = some 2 ∧
      ((nextOf (step (presented .active (.command 4)))).bind State.response).map respStatus = some 4 ∧
      ((nextOf (step (presented .active (.command 0)))).bind State.response).map respStatus = some 5 := by decide

/-- An instance whose master clock is 1 Hz: on this hardware's two clocks the ratio is always supported (R135). -/
theorem witness_CfgclkSurfacesUnsupportedRatio :
    let s := { idleAt .initialized 2 with cfg := { instanceOf .clk12M capRef with mclkHz12M := 1 } }
    Idle s ∧ s.st = .initialized ∧ validWidth s.cfg.cap 16 = true ∧
      solve s.cfg.toParams (mclkHz s.cfg) (s.cfg.pllTargetFactor * (lookup s.cfg.toParams 8000).targetHz) =
        none := by decide

/-- One unrecognised selector at a time, each at the least unrecognised code. -/
theorem witness_CfgfmtRejectsUnrecognisedSelectors :
    let s := idleAt .clockConfigured 1
    Idle s ∧ s.st = .clockConfigured ∧ 2 ≤ (2 : BitVec 2).toNat ∧ 5 ≤ (5 : BitVec 3).toNat ∧
      4 ≤ (4 : BitVec 3).toNat ∧ validWidth s.cfg.cap 17 = false := by decide

theorem witness_PllImageRoundTripForEveryMask :
    (freeBits 0xFFE0).length = 5 ∧ (freeBits 0x7776).length = 5 ∧ (freeBits 0x07FF).length = 5 := by decide

theorem witness_PllRequestsOfThisHardware :
    (lookup thisHardware 0).targetHz = 11289600 ∧ (lookup thisHardware 96000).targetHz = 12288000 := by decide

theorem witness_CfgclkNeverUnsupportedHere :
    Idle (idleAt .initialized 2) ∧ (idleAt .initialized 2).cfg = instanceOf .clk12M capRef ∧
      ((nextOf (exec (.cfgclk 1 17 false 8000) (idleAt .initialized 2))).bind State.response).isSome = true := by decide

theorem witness_EveryMergeIsWellFormed : capWf State.reset.cfg = true := by decide

theorem witness_FormatValueIsInjective :
    capWf State.reset.cfg = true ∧ fmtWidthOf State.reset.cfg.cap 24 = some 0x0008 ∧
      fmtValue State.reset.cfg.cap .controllerIsSlave .dspB .frameInverted 0x0008 = 0x007B := by decide

theorem witness_StepKeepsTheInvariant :
    BlockInv State.reset = true ∧ step State.reset = .next State.reset ∧
      BlockInv (running .shuttingDown .off (shutdownPlan capRef) 9 0) = true ∧
      ∃ t, step (running .shuttingDown .off (shutdownPlan capRef) 9 0) = .next t :=
  ⟨by decide, rfl, by decide, _, rfl⟩

theorem witness_StepKeepsPlanOrder :
    let s := running .active .muted (mutePlan capRef) 0 0
    BlockInv s = true ∧ InPlanOrder s ∧ (∃ t, step s = .next t) ∧ resetDue s = none := by
  refine ⟨by decide, ?_, ⟨_, rfl⟩, by decide⟩
  intro f hf
  cases hf
  exact .nil

/-- At the first and at the last step of the longest plan. -/
theorem witness_EveryCommandEnds :
    let f : Flight := { plan := activatePlan capRef, t := 0, dest := .active }
    let s := running .formatConfigured .active (activatePlan capRef) 0 0
    let t := running .formatConfigured .active (activatePlan capRef) 10 0
    BlockInv s = true ∧ s.flight = some f ∧ NoReset s ∧ BlockInv t = true ∧ t.flight = some f ∧ NoReset t :=
  ⟨by decide, rfl, noReset_of_nil rfl, by decide, rfl, noReset_of_nil rfl⟩

/-- To Reset by FAULT, along a row of the table, and to Off by REMOVE. -/
theorem witness_SequencerMovesByTheTable :
    BlockInv (presented .off (.command 0xB)) = true ∧
      (nextOf (step (presented .off (.command 0xB)))).map State.st = some .reset ∧
      BlockInv (presented .muted (.command 0xA)) = true ∧
      (nextOf (step (presented .muted (.command 0xA)))).map State.st = some .shuttingDown ∧
      BlockInv (presented .active (.command 0xC)) = true ∧
      (nextOf (step (presented .active (.command 0xC)))).map State.st = some .off := by decide

theorem witness_OnlyFaultOrHardwareResetLeavesOff :
    let s := presented .off (.hardwareReset .clk12M288 0)
    BlockInv s = true ∧ s.st = .off ∧ (nextOf (step s)).map State.st = some .reset := by decide

/-- The last step of SHUTDOWN, and a pure command taken while the response of the REMOVE before it stands. -/
theorem witness_NoResponseCarriesShuttingDown :
    let s := running .shuttingDown .off (shutdownPlan capRef) 9 0
    let t := { presented .off (.command 0x2) with response := some 0x00000000_00000000_00000038 }
    BlockInv s = true ∧ (nextOf (step s)).map State.response = some (some 0x00000000_00000000_000002B8) ∧
      BlockInv t = true ∧ (nextOf (step t)).map State.response = some (some 0x00AC4400_00000007_00000038) := by decide

theorem witness_MachineRunIsTheWholeCommand :
    let s := presented .reset (.command 0x00000000_00000000_00000004)
    Idle s ∧ s.inputs = [.command 0x00000000_00000000_00000004] ∧
      decode 0x00000000_00000000_00000004 = .ok .init := by decide

end Sys2Proof.Tests
end

/-! The machine's run against the meaning of one command (00_scope.md R5).  Where the host presents nothing more, an
idle block holds and a plan in flight is stepped, which is what `drain` does; so a run is the acceptance of the word
and then `drain`. -/

namespace Sys2Proof.Machine

/-! ### No plan step and no meaning touches what the host presents -/

@[simp] theorem stepDone_inputs (f : Flight) (s : State) : (stepDone f s).inputs = s.inputs := by
  rcases stepDone_cases f s with ⟨-, h⟩ | ⟨-, h⟩ <;> rw [h]
  rw [complete_inputs]

@[simp] theorem perform_inputs (f : Flight) (p : PlanStep) (s : State) : (perform f p s).inputs = s.inputs := by
  rcases perform_cases f p s with ⟨ms, -, h⟩ | ⟨a, o, -, -, h⟩ | ⟨a, v, o, -, -, h⟩ | ⟨l, -, -, h⟩ <;> simp [h]

@[simp] theorem planStep_inputs (f : Flight) (s : State) : (planStep f s).inputs = s.inputs := by
  unfold planStep
  split
  · exact perform_inputs f _ s
  · exact complete_inputs f.dest s

theorem exec_inputs {i : Instr} {s t : State} (h : Idle s) (ht : exec i s = .next t) : t.inputs = s.inputs := by
  rcases exec_next h ht with ⟨e, rfl⟩ | ⟨a, b, rfl⟩ | ⟨dest, rfl, -⟩ | ⟨during, dest, plan, rfl, -⟩ <;> simp

/-! ### A step of an idle block -/

theorem resetDue_nothing_presented {s : State} (hi : s.inputs = []) : resetDue s = none :=
  resetDue_of_noReset fun _ _ _ => by simp [hi]

theorem resetDue_command_presented {s : State} {cw : CmdWord} {rest : List HostInput}
    (hi : s.inputs = .command cw :: rest) : resetDue s = none :=
  resetDue_of_noReset fun _ _ _ => by simp [hi]

theorem step_idle {s : State} (h : Idle s) (hr : resetDue s = none) : step s = takeCommand s := by
  simp [step, show s.flight = none from h, hr]

theorem step_nothing_presented {s : State} (h : Idle s) (hi : s.inputs = []) : step s = .next s := by
  rw [step_idle h (resetDue_nothing_presented hi)]
  simp only [takeCommand, hi]

theorem step_legal_word {s : State} {cw : CmdWord} {rest : List HostInput} {i : Instr} (h : Idle s)
    (hi : s.inputs = .command cw :: rest) (hd : decode cw = .ok i) : step s = exec i (accept cw rest s) := by
  rw [step_idle h (resetDue_command_presented hi)]
  simp only [takeCommand, hi, hd]

/-- Settles O6: accepting the word is putting it in the operand latches and off the host's list. -/
theorem stepRunsTheDecodedCommand : Obligations.StepRunsTheDecodedCommand := by
  intro s cw rest i hidle hinputs hdecode
  exact step_legal_word hidle hinputs hdecode

/-! ### The run of the machine -/

/-- A run ends where a step is refused. -/
theorem run_refused {k : Nat} {s : State} {r : Refusal} (h : step s = .refused r) :
    Host.Core.run Sys2Proof.core (k + 1) s = .refused r := by
  have hcore : Sys2Proof.core.step s = .refused r := h
  simp only [Host.Core.run, hcore]

/-- With nothing more presented, the machine's own steps drain the command in flight and then hold. -/
theorem run_eq_drain (k : Nat) (s : State) (hi : s.inputs = []) : Host.Core.run Sys2Proof.core k s = drain k s := by
  induction k generalizing s with
  | zero => rfl
  | succ k ih =>
    cases hf : s.flight with
    | none => rw [run_next (step_nothing_presented hf hi), ih s hi, drain_idle hf, drain_idle hf]
    | some f =>
      have hr : resetDue s = none := resetDue_nothing_presented hi
      rw [run_next (step_flight hf hr), drain_flight hf hr, ih _ (by rw [planStep_inputs, hi])]

/-- Settles O60: the first step is `exec` of the decoded command, and the run from there is `drain`. -/
theorem machineRunIsTheWholeCommand : Obligations.MachineRunIsTheWholeCommand := by
  intro s cw i hidle hinputs hdecode
  have hstep : step s = exec i (accept cw [] s) := step_legal_word hidle hinputs hdecode
  show Host.Core.run Sys2Proof.core (longestPlan + 1) s = runCommand i (accept cw [] s)
  cases hexec : exec i (accept cw [] s) with
  | next t =>
    have hnone : t.inputs = [] := exec_inputs (s := accept cw [] s) hidle hexec
    simp only [runCommand, hexec]
    exact (run_next (hstep.trans hexec)).trans (run_eq_drain longestPlan t hnone)
  | fault r => exact nomatch r
  | refused r =>
    simp only [runCommand, hexec]
    exact run_refused (hstep.trans hexec)

end Sys2Proof.Machine

/-! The state and what a step may write of it (10_state.md): the state after hardware reset, the configuration, the
registers of the codec, and the numbers a PLLDivision is in them.  `step_cases` says what a step can be, so each frame
below is one lemma about a plan step and one about a meaning. -/

namespace Sys2Proof.Machine

/-! ### Hardware reset -/

/-- Settles O53: between commands the invariant asks of the reset state that its latches are empty and that no
response stands, and those are the values reset gives them. -/
theorem resetStateHoldsTheInvariant : Obligations.ResetStateHoldsTheInvariant := by
  intro cfg
  have hidle : Idle (State.resetWith cfg) := rfl
  have hwf : (State.resetWith cfg).codec.wf = true := rfl
  have hok : idleOk (State.resetWith cfg) = true := by simp [idleOk, State.resetWith]
  exact ⟨rfl, rfl, hidle, hwf, (inv_idle hidle).mpr ⟨hwf, Nat.zero_le _, hok⟩⟩

/-! ### No plan step and no meaning writes the configuration -/

@[simp] theorem stepDone_cfg (f : Flight) (s : State) : (stepDone f s).cfg = s.cfg := by
  rcases stepDone_cases f s with ⟨-, h⟩ | ⟨-, h⟩ <;> rw [h]
  rw [complete_cfg]

@[simp] theorem perform_cfg (f : Flight) (p : PlanStep) (s : State) : (perform f p s).cfg = s.cfg := by
  rcases perform_cases f p s with ⟨ms, -, h⟩ | ⟨a, o, -, -, h⟩ | ⟨a, v, o, -, -, h⟩ | ⟨l, -, -, h⟩ <;> simp [h]

@[simp] theorem planStep_cfg (f : Flight) (s : State) : (planStep f s).cfg = s.cfg := by
  unfold planStep
  split
  · exact perform_cfg f _ s
  · exact complete_cfg f.dest s

theorem exec_cfg {i : Instr} {s t : State} (h : Idle s) (ht : exec i s = .next t) : t.cfg = s.cfg := by
  rcases exec_next h ht with ⟨e, rfl⟩ | ⟨a, b, rfl⟩ | ⟨dest, rfl, -⟩ | ⟨during, dest, plan, rfl, -⟩ <;> simp

@[simp] theorem rejectWord_cfg (s : State) : (rejectWord s).cfg = s.cfg := rfl

/-- Settles O13: of the things a step can be, only a hardware reset writes the configuration. -/
theorem configurationIsConstant : Obligations.ConfigurationIsConstant := by
  intro s t ht
  rcases step_cases s with ⟨strap, after, rest, hi, -, h⟩ | ⟨-, f, -, h⟩ | ⟨hidle, cw, rest, i, -, -, h⟩ |
    ⟨-, cw, rest, e, -, -, h⟩ | ⟨-, -, h⟩ <;> rw [h] at ht
  case inl =>
    cases ht
    exact .inr ⟨strap, after, rest, hi, rfl⟩
  case inr.inr.inl => exact .inl (exec_cfg (s := accept cw rest s) hidle ht)
  all_goals
    cases ht
    simp

/-! ### The codec's registers -/

@[simp] theorem stepDone_codec (f : Flight) (s : State) : (stepDone f s).codec = s.codec := by
  rcases stepDone_cases f s with ⟨-, h⟩ | ⟨-, h⟩ <;> rw [h]
  rw [complete_codec]

/-- A plan step whose operation completes leaves the codec alone, if it writes no register. -/
theorem perform_codec_of_writtenAddr_none {f : Flight} {p : PlanStep} {s : State} {o : Option Word16}
    (ho : answerAt s 0 = .completes o) (hp : writtenAddr p = none) : (perform f p s).codec = s.codec := by
  rcases perform_cases f p s with ⟨ms, -, h⟩ | ⟨a, o', -, -, h⟩ | ⟨a, v, o', hw, -, -⟩ | ⟨l, -, hl, -⟩
  · simp [h]
  · simp [h]
  · rcases hw with rfl | ⟨pm, nb, rfl, -⟩ <;> cases hp
  · cases ho.symm.trans hl

/-- A plan step whose write completes has the codec take one value at the register it writes. -/
theorem perform_codec_of_writtenAddr_some {f : Flight} {p : PlanStep} {s : State} {o : Option Word16} {a : Addr}
    (ho : answerAt s 0 = .completes o) (hp : writtenAddr p = some a) :
    ∃ v, (perform f p s).codec = s.codec.take s.cfg.cap a v := by
  rcases perform_cases f p s with ⟨ms, rfl, -⟩ | ⟨b, o', rfl, -, -⟩ | ⟨b, v, o', hw, -, h⟩ | ⟨l, -, hl, -⟩
  · cases hp
  · cases hp
  · have hb : b = a := by rcases hw with rfl | ⟨pm, nb, rfl, -⟩ <;> exact Option.some.inj hp
    exact ⟨v, by simp [h, hb]⟩
  · cases ho.symm.trans hl

theorem Memory.read?_take_other (m : Memory) {c : Cap} {a b : Addr} (ha : a ≠ c.addrReset) (hb : b ≠ a)
    (v : Word16) : (m.take c a v).read? b = m.read? b := by
  rw [Memory.take_other ha, Memory.read?_write_other m hb]

theorem exec_codec {i : Instr} {s t : State} (h : Idle s) (ht : exec i s = .next t) : t.codec = s.codec := by
  rcases exec_next h ht with ⟨e, rfl⟩ | ⟨a, b, rfl⟩ | ⟨dest, rfl, -⟩ | ⟨during, dest, plan, rfl, -⟩ <;> simp

@[simp] theorem rejectWord_codec (s : State) : (rejectWord s).codec = s.codec := rfl

/-- Without a command in flight a step reaches the codec only by a hardware reset. -/
theorem step_idle_codec {s t : State} (hidle : Idle s) (hr : resetDue s = none) (ht : step s = .next t) :
    t.codec = s.codec := by
  rcases step_cases s with ⟨strap, after, rest, -, hdue, -⟩ | ⟨-, f, hf, -⟩ | ⟨-, cw, rest, i, -, -, h⟩ |
    ⟨-, cw, rest, e, -, -, h⟩ | ⟨-, -, h⟩
  · cases hr.symm.trans hdue
  · cases hidle.symm.trans hf
  · exact exec_codec (s := accept cw rest s) hidle (h.symm.trans ht)
  · cases h.symm.trans ht
    simp
  · cases h.symm.trans ht
    rfl

/-! ### The registers a plan reaches -/

theorem stepAddr_of_writtenAddr {p : PlanStep} {a : Addr} (h : writtenAddr p = some a) : stepAddr p = some a := by
  cases p with
  | write b v => exact h
  | writeMerged b pm nb => exact h
  | read b => cases h
  | delay ms => cases h

theorem planWf_of_inv {s : State} {f : Flight} (hinv : BlockInv s = true) (hf : s.flight = some f) :
    planWf s.cfg.cap f.plan = true := by
  obtain ⟨-, -, hok⟩ := (inv_flight hf).mp hinv
  simp only [flightOk, Bool.and_eq_true] at hok
  obtain ⟨⟨⟨⟨⟨⟨⟨-, hplan⟩, -⟩, -⟩, -⟩, -⟩, -⟩, -⟩ := hok
  exact hplan

theorem mem_roleAddrs_of_planWf {c : Cap} {plan : List PlanStep} {p : PlanStep} {a : Addr}
    (hplan : planWf c plan = true) (hp : p ∈ plan) (ha : stepAddr p = some a) : a ∈ roleAddrs c := by
  simp only [planWf, Bool.and_eq_true, List.all_eq_true] at hplan
  obtain ⟨⟨hall, -⟩, -⟩ := hplan
  simpa [ha] using hall p hp

/-- Settles O19: the plan step in turn is the only write, the codec takes it at one register, and the invariant says
which registers a plan reaches. -/
theorem onlyTheAddressedRegisterChanges : Obligations.OnlyTheAddressedRegisterChanges := by
  intro s t hinv hr ht
  refine ⟨fun f o hf ho p hp => ?_, fun hidle => step_idle_codec hidle hr ht⟩
  have hstep : step s = .next (perform f p s) := by rw [step_flight hf hr, planStep_of_get hp]
  cases ht.symm.trans hstep
  refine ⟨perform_codec_of_writtenAddr_none ho, fun a ha => ⟨?_, fun hne b hb => ?_⟩⟩
  · exact mem_roleAddrs_of_planWf (planWf_of_inv hinv hf) (List.mem_of_getElem? hp) (stepAddr_of_writtenAddr ha)
  · obtain ⟨v, hv⟩ := perform_codec_of_writtenAddr_some (f := f) ho ha
    rw [hv, Memory.read?_take_other s.codec hne hb]

/-! ### A PLLDivision in the codec's registers -/

/-- `CAP_REF`'s preserve mask leaves the low five bits. -/
theorem freeBits_ref : freeBits 0xFFE0 = [0, 1, 2, 3, 4] := by decide

theorem toNat_ofBoolListLE_nil : (BitVec.ofBoolListLE []).toNat = 0 := rfl

theorem toNat_ofBoolListLE_cons (b : Bool) (bs : List Bool) :
    (BitVec.ofBoolListLE (b :: bs)).toNat = 2 * (BitVec.ofBoolListLE bs).toNat + b.toNat := by
  rw [BitVec.ofBoolListLE, BitVec.toNat_concat, Nat.mul_comm]

/-- Bits put at consecutive positions are the number they spell, lowest bit first, moved up to the first of them. -/
theorem toNat_placeBits_range' (lo : Nat) (bs : List Bool) (h : lo + bs.length ≤ 16) :
    (placeBits (List.range' lo bs.length) bs).toNat = 2 ^ lo * (BitVec.ofBoolListLE bs).toNat := by
  induction bs generalizing lo with
  | nil => rfl
  | cons b bs ih =>
    rw [List.length_cons] at h
    have hrest := ih (lo + 1) (by omega)
    have hpow : 2 ^ (lo + 1) ≤ 2 ^ 16 := Nat.pow_le_pow_right (by omega) (by omega)
    have hbit : b.toNat <<< lo < 2 ^ (lo + 1) := by
      rw [Nat.shiftLeft_eq]
      cases b <;> simp [Nat.pow_succ]
    have hplaced : ((BitVec.ofBool b).setWidth 16 <<< lo).toNat = b.toNat <<< lo := by
      rw [BitVec.toNat_shiftLeft, BitVec.toNat_setWidth, BitVec.toNat_ofBool,
        Nat.mod_eq_of_lt (b.toNat_lt.trans (by decide)), Nat.mod_eq_of_lt (hbit.trans_le hpow)]
    rw [toNat_ofBoolListLE_cons, List.length_cons, List.range'_succ, placeBits, BitVec.toNat_or, hrest, hplaced,
      Nat.or_comm, ← Nat.two_pow_add_eq_or_of_lt hbit, Nat.shiftLeft_eq, Nat.pow_succ]
    ring

theorem toNat_four_bits (n : BitVec 4) :
    n.toNat =
      (n.getLsbD 0).toNat + 2 * ((n.getLsbD 1).toNat + 2 * ((n.getLsbD 2).toNat + 2 * (n.getLsbD 3).toNat)) := by
  revert n
  decide

/-- The bits of the control register, lowest first, spell `pre_divide` above the four bits of `n`. -/
theorem toNat_ctrlBits (d : PllDivision) :
    (BitVec.ofBoolListLE (ctrlBits d)).toNat = d.preDivide.toNat * 16 + d.n.toNat := by
  rw [ctrlBits, toNat_four_bits d.n]
  simp only [toNat_ofBoolListLE_cons, toNat_ofBoolListLE_nil]
  omega

theorem toNat_place_ref (d : PllDivision) : (place 0xFFE0 d).toNat = d.preDivide.toNat * 16 + d.n.toNat := by
  have hplace : place 0xFFE0 d = placeBits (List.range' 0 (ctrlBits d).length) (ctrlBits d) := by
    rw [place, freeBits_ref]
    rfl
  rw [hplace, toNat_placeBits_range' 0 (ctrlBits d) (by simp [ctrlBits]), toNat_ctrlBits, Nat.pow_zero, Nat.one_mul]

theorem toNat_kHi (d : PllDivision) : (kHi d).toNat = d.k.toNat / 65536 := by
  have hk : d.k.toNat < 2 ^ 24 := d.k.isLt
  rw [kHi, BitVec.toNat_setWidth, BitVec.extractLsb'_toNat, Nat.shiftRight_eq_div_pow]
  omega

theorem toNat_kLo (d : PllDivision) : (kLo d).toNat = d.k.toNat % 65536 := by
  rw [kLo, BitVec.extractLsb'_toNat, Nat.shiftRight_zero]

/-- Settles O50: the free bits of `CAP_REF`'s mask are consecutive from 0, so the bits put there are the number they
spell. -/
theorem pllImageOfTheReferenceMask : Obligations.PllImageOfTheReferenceMask :=
  fun d => ⟨toNat_place_ref d, toNat_kHi d, toNat_kLo d⟩

end Sys2Proof.Machine

/-! RegisterAccess and plans (20_memory.md).  A plan step that completes hands `stepDone` a state with one more event,
a plan step that fails hands `abort` one with none; the effects of single steps, the order of a plan's operations and
the end of every command follow from that. -/

namespace Sys2Proof.Machine

/-! ### One step of a command in flight -/

theorem step_perform {s : State} {f : Flight} {p : PlanStep} (hf : s.flight = some f)
    (hp : f.plan[s.seqPc.toNat]? = some p) (hr : resetDue s = none) : step s = .next (perform f p s) := by
  rw [step_flight hf hr, planStep_of_get hp]

/-- The counter does not wrap below 256. -/
theorem toNat_seqPc_add_one {pc : BitVec 8} (h : pc.toNat + 1 < 256) : (pc + 1).toNat = pc.toNat + 1 := by
  rw [BitVec.toNat_add]
  exact Nat.mod_eq_of_lt h

@[simp] theorem stepDone_seqPc (f : Flight) (s : State) : (stepDone f s).seqPc = s.seqPc + 1 := by
  rcases stepDone_cases f s with ⟨-, h⟩ | ⟨-, h⟩ <;> simp [h]

@[simp] theorem stepDone_trace (f : Flight) (s : State) : (stepDone f s).trace = s.trace := by
  rcases stepDone_cases f s with ⟨-, h⟩ | ⟨-, h⟩ <;> simp [h]

@[simp] theorem stepDone_answers (f : Flight) (s : State) : (stepDone f s).answers = s.answers := by
  rcases stepDone_cases f s with ⟨-, h⟩ | ⟨-, h⟩ <;> simp [h]

@[simp] theorem stepDone_busOps (f : Flight) (s : State) : (stepDone f s).busOps = s.busOps := by
  rcases stepDone_cases f s with ⟨-, h⟩ | ⟨-, h⟩ <;> simp [h]

/-- Where the plan has a further step, the command stays in flight. -/
theorem stepDone_flight_of_get {f : Flight} {p : PlanStep} {s : State} (h : f.plan[(s.seqPc + 1).toNat]? = some p) :
    (stepDone f s).flight = some f := by
  obtain ⟨hlt, -⟩ := List.getElem?_eq_some_iff.mp h
  rcases stepDone_cases f s with ⟨-, hnext⟩ | ⟨hend, -⟩
  · rw [hnext]
  · omega

theorem perform_write_completes {s : State} {o : Option Word16} (ho : answerAt s 0 = .completes o) (f : Flight)
    (a : Addr) (v : Word16) :
    perform f (.write a v) s = stepDone f ({ s.answered with codec := s.codec.take s.cfg.cap a v }.log (.wr a v)) := by
  simp only [perform, performWrite, memWrite_completes ho]

/-- A merged write is the write of the merged value. -/
theorem perform_writeMerged (f : Flight) (a : Addr) (pm nb : Word16) (s : State) :
    perform f (.writeMerged a pm nb) s = perform f (.write a ((f.t &&& pm) ||| nb)) s := rfl

/-- Every step that writes a register is performed as a write of some value. -/
theorem perform_of_writtenAddr {p : PlanStep} {a : Addr} (hp : writtenAddr p = some a) (f : Flight) (s : State) :
    ∃ v, perform f p s = perform f (.write a v) s := by
  cases p with
  | write b v =>
    cases hp
    exact ⟨v, rfl⟩
  | writeMerged b pm nb =>
    cases hp
    exact ⟨_, perform_writeMerged f a pm nb s⟩
  | read b => cases hp
  | delay ms => cases hp

/-! ### A completed read -/

/-- The flight that holds the value a completed read of `a` returns in `s` (R46). -/
def Flight.withRead (f : Flight) (a : Addr) (s : State) : Flight := { f with t := readValue s 0 s.codec a }

/-- The state a completed read of `a` leaves. -/
def afterRead (f : Flight) (a : Addr) (s : State) : State :=
  stepDone (f.withRead a s) (s.answered.log (.rd a (readValue s 0 s.codec a)))

theorem perform_read_completes {s : State} {o : Option Word16} (ho : answerAt s 0 = .completes o) (f : Flight)
    (a : Addr) : perform f (.read a) s = afterRead f a s := by
  simp only [perform, memRead_completes ho, afterRead, Flight.withRead, readValue_completes ho]

@[simp] theorem afterRead_seqPc (f : Flight) (a : Addr) (s : State) : (afterRead f a s).seqPc = s.seqPc + 1 := by
  simp [afterRead]

@[simp] theorem afterRead_trace (f : Flight) (a : Addr) (s : State) :
    (afterRead f a s).trace = s.trace ++ [.rd a (readValue s 0 s.codec a)] := by
  simp [afterRead]

@[simp] theorem afterRead_codec (f : Flight) (a : Addr) (s : State) : (afterRead f a s).codec = s.codec := by
  simp [afterRead]

@[simp] theorem afterRead_cfg (f : Flight) (a : Addr) (s : State) : (afterRead f a s).cfg = s.cfg := by
  simp [afterRead]

@[simp] theorem afterRead_inputs (f : Flight) (a : Addr) (s : State) : (afterRead f a s).inputs = s.inputs := by
  simp [afterRead]

/-- A read spends one answer. -/
theorem answerAt_afterRead (f : Flight) (a : Addr) (s : State) (n : Nat) :
    answerAt (afterRead f a s) n = answerAt s (n + 1) := by
  rw [answerAt_congr (s := s.answered) (by simp [afterRead]) (by simp [afterRead]), answerAt_answered]

/-! ### The effects of single steps -/

/-- The codec takes a value at one register and at no other, the reset register apart. -/
theorem Memory.read?_take (m : Memory) {c : Cap} {a : Addr} (ha : a ≠ c.addrReset) (v : Word16) :
    (m.take c a v).read? a = some v ∧ ∀ b, b ≠ a → (m.take c a v).read? b = m.read? b :=
  ⟨by rw [Memory.take_other ha, Memory.read?_write_same], fun _ hb => Memory.read?_take_other m ha hb v⟩

/-- Settles O14: a completed write logs itself, and the codec takes it at its register. -/
theorem replaceWriteStoresTheWholeValue : Obligations.ReplaceWriteStoresTheWholeValue := by
  refine ⟨fun a v => rfl, fun s f a v o hf hp hr ho => ?_⟩
  refine ⟨_, step_perform hf hp hr, ?_⟩
  rw [perform_write_completes ho]
  exact ⟨by simp, by simp, by simp, fun ha => by simpa using Memory.read?_take s.codec ha v⟩

/-- Settles O16: a delay logs itself, and what it hands on is otherwise the state it found. -/
theorem delayCannotFail : Obligations.DelayCannotFail := by
  intro s f ms hf hp hr
  have hdelay : perform f (.delay ms) s = stepDone f (s.log (.dl ms)) := rfl
  refine ⟨_, step_perform hf hp hr, ?_⟩
  rw [hdelay]
  simp

/-- Settles O18: the premise makes the operation complete without an answer of its own, so a write is what the codec
takes and a read returns what it holds. -/
theorem plainRegisterFilePremise : Obligations.PlainRegisterFilePremise := by
  intro s f p hf hp hr hplain
  have ho : answerAt s 0 = .completes none := hplain 0 Nat.one_pos
  refine ⟨_, step_perform hf hp hr, fun a ha => ?_, fun ha a => ?_, fun a ha => ?_,
    perform_codec_of_writtenAddr_none ho⟩
  · obtain ⟨v, hv⟩ := perform_of_writtenAddr ha f s
    rw [hv, perform_write_completes ho]
    exact ⟨v, by simp, fun hne => by simpa using Memory.read?_take s.codec hne v⟩
  · obtain ⟨v, hv⟩ := perform_codec_of_writtenAddr_some (f := f) ho ha
    rw [hv, Memory.take_reset, Memory.read?_chipReset]
  · subst ha
    rw [perform_read_completes ho, afterRead_trace, readValue_completes ho]
    rfl

/-! ### The two steps of a merge -/

/-- Bit by bit, a merged value is the preserved bits of the value read and the new bits elsewhere. -/
theorem getLsbD_merged {t pm nb : Word16} (hwf : nb &&& pm = 0) (i : Nat) :
    ((t &&& pm) ||| nb).getLsbD i = if pm.getLsbD i then t.getLsbD i else nb.getLsbD i := by
  have hbit : (nb.getLsbD i && pm.getLsbD i) = false := by
    rw [← BitVec.getLsbD_and, hwf]
    simp
  rw [BitVec.getLsbD_or, BitVec.getLsbD_and]
  cases hpm : pm.getLsbD i with
  | false => simp
  | true =>
    rw [hpm, Bool.and_true] at hbit
    simp [hbit]

/-- Settles O15: the read keeps its value in the flight, where the merged write of the next step finds it. -/
theorem mergeKeepsThePreservedBits : Obligations.MergeKeepsThePreservedBits := by
  refine ⟨fun a pm nb => rfl, fun a b => ⟨rfl, rfl⟩, ?_⟩
  intro s f a pm nb o o' hf hread hmerge hpc hr ho ho' hwf
  have hnext : f.plan[(s.seqPc + 1).toNat]? = some (.writeMerged a pm nb) := by
    rw [toNat_seqPc_add_one hpc]
    exact hmerge
  have hflight : (afterRead f a s).flight = some (f.withRead a s) := stepDone_flight_of_get hnext
  have hget : (f.withRead a s).plan[(afterRead f a s).seqPc.toNat]? = some (.writeMerged a pm nb) := by
    rw [afterRead_seqPc]
    exact hnext
  have hnoReset : NoReset (afterRead f a s) := by simpa [NoReset] using hr
  have hanswer : answerAt (afterRead f a s) 0 = .completes o' := by rw [answerAt_afterRead, ho']
  have hstep : step s = .next (afterRead f a s) := by
    rw [step_perform hf hread (resetDue_of_noReset hr), perform_read_completes ho]
  refine ⟨_, _, (readValue s 0 s.codec a &&& pm) ||| nb, hstep,
    step_perform hflight hget (resetDue_of_noReset hnoReset), afterRead_codec f a s, ?_⟩
  rw [perform_writeMerged, perform_write_completes hanswer, Flight.withRead]
  refine ⟨by simp, fun ha => ?_, fun i _ => getLsbD_merged hwf i⟩
  simpa using Memory.read?_take s.codec ha ((readValue s 0 s.codec a &&& pm) ||| nb)

/-- Settles O51: `place` fills none of the preserved bits, and the complement of a bit set preserves none of it. -/
theorem everyMergeIsWellFormed : Obligations.EveryMergeIsWellFormed := by
  intro cfg d _
  refine ⟨fun w hw => ?_, fun a b => ⟨?_, ?_⟩⟩
  · simp only [pllWrites, List.mem_cons, List.not_mem_nil, or_false] at hw
    rcases hw with rfl | rfl | rfl
    · simpa [RegisterWrite.wf] using place_free cfg.cap.pllCtrlPreserve d
    · rfl
    · rfl
  · simp [setBits, RegisterWrite.wf]
  · simp [clearBits, RegisterWrite.wf]

end Sys2Proof.Machine

/-! Plans as wholes (20_memory.md R47, R52, R53): when a plan starts, what a meaning leaves of the bus, the order in
which a plan's operations reach it, and the end every plan comes to. -/

namespace Sys2Proof.Machine

/-! ### An ill-formed `CAP` -/

/-- A legal command that would start a plan with a step is refused under an ill-formed `CAP`. -/
theorem ifLegal_illFormed {c : SeqCmd} {s : State} {k : State → Result} {during dest : SeqState}
    {plan : List PlanStep} (hl : legal c s.st = true) (hk : k s = startPlan during dest plan s) (hp : plan ≠ [])
    (hc : capWf s.cfg = false) : ifLegal c s k = .refused .illFormedCap := by
  rw [ifLegal_legal hl, hk, startPlan_illFormed hp hc]

/-- Settles O11: each of the seven commands passes its checks and comes to start a plan that has a step. -/
theorem illFormedCapIsRefused : Obligations.IllFormedCapIsRefused := by
  intro s h hc
  refine ⟨fun hst => ?init, fun hst => ?activate, fun hst => ?mute, fun hst => ?unmute, fun hst => ?shutdown,
    fun hst role r width duplex rate plan hr hw hplan hne => ?cfgclk, fun hst role width std pol hv => ?cfgfmt⟩
  case init =>
    simp only [exec, execInit, whenIdle_idle h]
    exact ifLegal_illFormed (by simp [hst, legal]) rfl (List.cons_ne_nil _ _) hc
  case activate =>
    simp only [exec, execActivate, whenIdle_idle h]
    exact ifLegal_illFormed (by simp [hst, legal]) rfl (List.cons_ne_nil _ _) hc
  case mute =>
    simp only [exec, execMute, whenIdle_idle h]
    exact ifLegal_illFormed (by simp [hst, legal]) rfl (List.cons_ne_nil _ _) hc
  case unmute =>
    simp only [exec, execUnmute, whenIdle_idle h]
    exact ifLegal_illFormed (by simp [hst, legal]) rfl (List.cons_ne_nil _ _) hc
  case shutdown =>
    simp only [exec, execShutdown, whenIdle_idle h]
    have hl : legal .shutdown s.startCommand.st = true := by
      rcases hst with hst | hst <;> simp [hst, legal]
    exact ifLegal_illFormed hl rfl (List.cons_ne_nil _ _) hc
  case cfgclk =>
    simp only [exec, execCfgclk, whenIdle_idle h, hr, State.startCommand_cfg, hw, if_true]
    refine ifLegal_illFormed (during := .initialized) (dest := .clockConfigured) (by simp [hst, legal]) ?_ hne hc
    simp only [State.startCommand_cfg, State.startCommand_st, hplan, hst]
  case cfgfmt =>
    obtain ⟨v, hv⟩ := Option.ne_none_iff_exists'.mp hv
    simp only [exec, execCfgfmt, whenIdle_idle h]
    refine ifLegal_illFormed (during := .clockConfigured) (dest := .formatConfigured) (by simp [hst, legal]) ?_
      (List.cons_ne_nil (.write s.cfg.cap.addrIface v) []) hc
    simp only [State.startCommand_cfg, State.startCommand_st, hv, hst, RegisterWrite.steps]

/-! ### No meaning touches the bus -/

/-- Each of the twelve meanings begins by asking that no command is in flight. -/
theorem exec_flight {s : State} {f : Flight} (hf : s.flight = some f) (i : Instr) :
    exec i s = .refused .commandInFlight := by
  cases i <;>
    simp only [exec, execSolve, execLookup, execNegotiate, execInit, execCfgclk, execCfgfmt, execActivate, execMute,
      execUnmute, execShutdown, execFault, execRemove, whenIdle_flight hf]

theorem idle_of_exec_next {i : Instr} {s t : State} (ht : exec i s = .next t) : Idle s := by
  cases hf : s.flight with
  | none => exact hf
  | some f => cases (exec_flight hf i).symm.trans ht

theorem exec_answers {i : Instr} {s t : State} (h : Idle s) (ht : exec i s = .next t) : t.answers = s.answers := by
  rcases exec_next h ht with ⟨e, rfl⟩ | ⟨a, b, rfl⟩ | ⟨dest, rfl, -⟩ | ⟨during, dest, plan, rfl, -⟩ <;> simp

theorem exec_busOps {i : Instr} {s t : State} (h : Idle s) (ht : exec i s = .next t) : t.busOps = s.busOps := by
  rcases exec_next h ht with ⟨e, rfl⟩ | ⟨a, b, rfl⟩ | ⟨dest, rfl, -⟩ | ⟨during, dest, plan, rfl, -⟩ <;> simp

/-- Settles O20: a meaning with a next state started on an idle block, and none of the things it can do there reaches
the environment. -/
theorem checksIssueNoRegisterOperation : Obligations.ChecksIssueNoRegisterOperation := by
  intro i s t ht
  have h : Idle s := idle_of_exec_next ht
  exact ⟨exec_codec h ht, exec_answers h ht, exec_busOps h ht, exec_cfg h ht, exec_inputs h ht⟩

/-! ### What a plan step hands on -/

/-- The flight `g` and the state `t` that the completed plan step `p` of the flight `f` hands to `stepDone`: the plan
goes on where it was, with one more event, that of `p`, and at most one more register operation. -/
structure StepCompletes (f : Flight) (p : PlanStep) (s : State) (g : Flight) (t : State) : Prop where
  plan : g.plan = f.plan
  dest : g.dest = f.dest
  seqPc : t.seqPc = s.seqPc
  inputs : t.inputs = s.inputs
  busOps : t.busOps ≤ s.busOps + 1
  trace : ∃ e, matchesStep p e ∧ t.trace = s.trace ++ [e]

/-- The state `t` that a failed plan step hands to `abort`: no event, and one more register operation. -/
structure StepFails (s t : State) : Prop where
  seqPc : t.seqPc = s.seqPc
  trace : t.trace = s.trace
  busOps : t.busOps = s.busOps + 1

theorem perform_outcome (f : Flight) (p : PlanStep) (s : State) :
    (∃ g t, perform f p s = stepDone g t ∧ StepCompletes f p s g t) ∨
    (∃ t, perform f p s = abort t ∧ StepFails s t) := by
  rcases perform_cases f p s with ⟨ms, rfl, h⟩ | ⟨a, o, rfl, -, h⟩ | ⟨a, v, o, hp, -, h⟩ | ⟨l, -, -, h⟩
  · exact .inl ⟨_, _, h, rfl, rfl, rfl, rfl, Nat.le_succ _, .dl ms, rfl, rfl⟩
  · exact .inl ⟨_, _, h, rfl, rfl, rfl, rfl, Nat.le_refl _, .rd a _, ⟨_, rfl⟩, rfl⟩
  · have hmatch : matchesStep p (.wr a v) := by
      rcases hp with rfl | ⟨pm, nb, rfl, rfl⟩
      · rfl
      · exact ⟨f.t, rfl⟩
    exact .inl ⟨_, _, h, rfl, rfl, rfl, rfl, Nat.le_refl _, .wr a v, hmatch, rfl⟩
  · exact .inr ⟨_, h, rfl, rfl, rfl⟩

theorem seqPc_lt_of_inv {s : State} {f : Flight} (hinv : BlockInv s = true) (hf : s.flight = some f) :
    s.seqPc.toNat < f.plan.length := by
  obtain ⟨-, -, hok⟩ := (inv_flight hf).mp hinv
  simp only [flightOk, Bool.and_eq_true, decide_eq_true_eq] at hok
  obtain ⟨⟨⟨⟨⟨⟨⟨-, -⟩, hlt⟩, -⟩, -⟩, -⟩, -⟩, -⟩ := hok
  exact hlt

theorem plan_length_le_of_inv {s : State} {f : Flight} (hinv : BlockInv s = true) (hf : s.flight = some f) :
    f.plan.length ≤ longestPlan := by
  have hplan := planWf_of_inv hinv hf
  simp only [planWf, Bool.and_eq_true, decide_eq_true_eq] at hplan
  obtain ⟨-, hlen⟩ := hplan
  exact hlen

/-- No plan is long enough for the counter to wrap. -/
theorem toNat_seqPc_add_one_of_lt {pc : BitVec 8} {plan : List PlanStep} (hpc : pc.toNat < plan.length)
    (hlen : plan.length ≤ longestPlan) : (pc + 1).toNat = pc.toNat + 1 :=
  toNat_seqPc_add_one (by simp only [longestPlan] at hlen; omega)

/-! ### Plan order -/

theorem inPlanOrder_of_idle {s : State} (h : Idle s) : InPlanOrder s := by
  intro f hf
  cases h.symm.trans hf

/-- One more step of the plan is matched by one more event. -/
theorem matches_take_succ {plan : List PlanStep} {p : PlanStep} {tr : List Event} {e : Event} {n : Nat}
    (hord : List.Forall₂ matchesStep (plan.take n) tr) (hp : plan[n]? = some p) (he : matchesStep p e) :
    List.Forall₂ matchesStep (plan.take (n + 1)) (tr ++ [e]) := by
  rw [List.take_add_one, hp]
  exact List.rel_append hord (.cons he .nil)

/-- The plan step in turn adds its event to a trace in plan order, or it fails and ends the command. -/
theorem perform_planOrder {s : State} {f : Flight} {p : PlanStep} (hp : f.plan[s.seqPc.toNat]? = some p)
    (hpc : (s.seqPc + 1).toNat = s.seqPc.toNat + 1)
    (hord : List.Forall₂ matchesStep (f.plan.take s.seqPc.toNat) s.trace) :
    InPlanOrder (perform f p s) ∧ (perform f p s).busOps ≤ s.busOps + 1 ∧
      (List.Forall₂ matchesStep (f.plan.take (s.seqPc.toNat + 1)) (perform f p s).trace ∨
        ((perform f p s).flight = none ∧ (perform f p s).trace = s.trace ++ [.fail s.seqPc.toNat])) := by
  rcases perform_outcome f p s with ⟨g, t, h, hdone⟩ | ⟨t, h, hfail⟩ <;> rw [h]
  · obtain ⟨e, hmatch, htrace⟩ := hdone.trace
    have hsucc : List.Forall₂ matchesStep (f.plan.take (s.seqPc.toNat + 1)) t.trace := by
      rw [htrace]
      exact matches_take_succ hord hp hmatch
    refine ⟨?_, by simpa using hdone.busOps, .inl (by simpa using hsucc)⟩
    rcases stepDone_cases g t with ⟨-, hnext⟩ | ⟨-, hend⟩
    · rw [hnext]
      intro g' hg'
      cases hg'
      show List.Forall₂ matchesStep (g.plan.take (t.seqPc + 1).toNat) t.trace
      rw [hdone.plan, hdone.seqPc, hpc]
      exact hsucc
    · rw [hend]
      exact inPlanOrder_of_idle (complete_flight _ _)
  · refine ⟨inPlanOrder_of_idle (abort_flight t), ?_, .inr ⟨abort_flight t, ?_⟩⟩
    · rw [abort_busOps, hfail.busOps]
    · rw [abort_trace, hfail.trace, hfail.seqPc]

/-- A meaning leaves no command in flight, or one that has done no step. -/
theorem exec_inPlanOrder {i : Instr} {s t : State} (h : Idle s) (ht : exec i s = .next t) : InPlanOrder t := by
  rcases exec_next h ht with ⟨e, rfl⟩ | ⟨a, b, rfl⟩ | ⟨dest, rfl, -⟩ | ⟨during, dest, plan, rfl, -⟩
  · exact inPlanOrder_of_idle (raise_flight _ _)
  · exact inPlanOrder_of_idle (returnOk_flight _ _ _)
  · exact inPlanOrder_of_idle (complete_flight _ _)
  · intro f hf
    cases hf
    exact .nil

/-- Without a command in flight no operation is issued, and what is in flight afterwards has done no step. -/
theorem step_idle_planOrder {s t : State} (h : Idle s) (ht : step s = .next t) :
    InPlanOrder t ∧ t.busOps = s.busOps := by
  rcases step_cases s with ⟨strap, after, rest, -, -, hs⟩ | ⟨-, f, hf, -⟩ | ⟨-, cw, rest, i, -, -, hs⟩ |
    ⟨-, cw, rest, e, -, -, hs⟩ | ⟨-, -, hs⟩
  · cases hs.symm.trans ht
    exact ⟨inPlanOrder_of_idle rfl, rfl⟩
  · cases h.symm.trans hf
  · have hexec := hs.symm.trans ht
    exact ⟨exec_inPlanOrder (s := accept cw rest s) h hexec, exec_busOps (s := accept cw rest s) h hexec⟩
  · cases hs.symm.trans ht
    exact ⟨inPlanOrder_of_idle rfl, rfl⟩
  · cases hs.symm.trans ht
    exact ⟨inPlanOrder_of_idle h, rfl⟩

/-- Settles O55: under the invariant the counter names a plan step, which adds its event or aborts; a reset leaves no
command in flight, and without one in flight none has done a step. -/
theorem stepKeepsPlanOrder : Obligations.StepKeepsPlanOrder := by
  intro s t hinv hord ht
  cases hf : s.flight with
  | none =>
    obtain ⟨hkeeps, hops⟩ := step_idle_planOrder hf ht
    exact ⟨hkeeps, by omega, fun f hs => nomatch hs⟩
  | some f =>
    cases hr : resetDue s with
    | some strap =>
      obtain ⟨after, rest, hi, hafter⟩ := resetDue_cases hr
      cases (step_reset hafter hi).symm.trans ht
      exact ⟨inPlanOrder_of_idle (hardwareReset_flight _ _), Nat.le_succ _, fun _ _ hnone => nomatch hnone⟩
    | none =>
      have hlt := seqPc_lt_of_inv hinv hf
      have hget : f.plan[s.seqPc.toNat]? = some f.plan[s.seqPc.toNat] := List.getElem?_eq_getElem hlt
      cases (step_perform hf hget hr).symm.trans ht
      obtain ⟨hkeeps, hops, htrace⟩ :=
        perform_planOrder hget (toNat_seqPc_add_one_of_lt hlt (plan_length_le_of_inv hinv hf)) (hord f hf)
      refine ⟨hkeeps, hops, fun f' hf' _ => ?_⟩
      cases hf'
      exact htrace

/-! ### The end of a command -/

/-- The command of the plan `plan` to the state `dest` has ended: in `dest` with OK and every step done, or in Reset
with BusFailure and the failed step's index. -/
def CommandEnded (plan : List PlanStep) (dest : SeqState) (u : State) : Prop :=
  ∃ w, Idle u ∧ u.response = some w ∧
    ((u.st = dest ∧ respStatus w = 0 ∧ u.seqPc.toNat = plan.length) ∨
      (u.st = .reset ∧ respStatus w = 3 ∧ u.seqPc.toNat < plan.length))

theorem commandEnded_complete {plan : List PlanStep} {s : State} (h : s.seqPc.toNat = plan.length) (dest : SeqState) :
    CommandEnded plan dest (complete dest s) :=
  ⟨_, complete_flight dest s, complete_response dest s, .inl ⟨rfl, respStatus_responseWord _ _ _ _ _, h⟩⟩

theorem commandEnded_abort {plan : List PlanStep} {s : State} (h : s.seqPc.toNat < plan.length) (dest : SeqState) :
    CommandEnded plan dest (abort s) :=
  ⟨_, abort_flight s, abort_response s, .inr ⟨rfl, respStatus_responseWord _ _ _ _ _, h⟩⟩

/-- A plan ends within as many steps as it has left. -/
theorem drain_ends (k : Nat) (s : State) (f : Flight) (hf : s.flight = some f) (hr : NoReset s)
    (hlt : s.seqPc.toNat < f.plan.length) (hlen : f.plan.length ≤ longestPlan)
    (hk : f.plan.length ≤ s.seqPc.toNat + k) : ∃ u, drain k s = .next u ∧ CommandEnded f.plan f.dest u := by
  induction k generalizing s f with
  | zero => omega
  | succ k ih =>
    have hget : f.plan[s.seqPc.toNat]? = some f.plan[s.seqPc.toNat] := List.getElem?_eq_getElem hlt
    have hpc : (s.seqPc + 1).toNat = s.seqPc.toNat + 1 := toNat_seqPc_add_one_of_lt hlt hlen
    rw [drain_flight hf (resetDue_of_noReset hr), planStep_of_get hget]
    rcases perform_outcome f f.plan[s.seqPc.toNat] s with ⟨g, t, h, hdone⟩ | ⟨t, h, hfail⟩ <;> rw [h]
    · have htpc : (t.seqPc + 1).toNat = s.seqPc.toNat + 1 := by rw [hdone.seqPc, hpc]
      rw [← hdone.plan] at hlen hk
      rw [← hdone.plan, ← hdone.dest]
      rcases stepDone_cases g t with ⟨hmore, hnext⟩ | ⟨hlast, hend⟩
      · rw [hnext]
        refine ih { t with seqPc := t.seqPc + 1, flight := some g } g rfl ?_ hmore hlen ?_
        · intro strap after rest hi
          exact hr strap after rest (hdone.inputs.symm.trans hi)
        · show g.plan.length ≤ (t.seqPc + 1).toNat + k
          omega
      · rw [hend]
        refine ⟨_, drain_idle (complete_flight _ _) k, commandEnded_complete ?_ g.dest⟩
        show (t.seqPc + 1).toNat = g.plan.length
        rw [hdone.plan] at hlast ⊢
        omega
    · refine ⟨_, drain_idle (abort_flight t) k, commandEnded_abort ?_ f.dest⟩
      rw [hfail.seqPc]
      exact hlt

/-- Settles O56: under the invariant the plan in flight has at most eleven steps left. -/
theorem everyCommandEnds : Obligations.EveryCommandEnds := by
  intro s f hinv hf hr
  have hlen := plan_length_le_of_inv hinv hf
  obtain ⟨u, hdrain, w, hended⟩ := drain_ends longestPlan s f hf hr (seqPc_lt_of_inv hinv hf) hlen (by omega)
  exact ⟨u, w, hdrain, hended⟩

end Sys2Proof.Machine

/-! The command word and the response word (30_encoding.md).  R68 is one lemma, `decode_eq_ok_iff`: a word decodes to
the operands of the row of R69 it belongs to, and to nothing else.  Between it and the encoder stand the fields of R61:
a word is its fields side by side, so the encoding of the operands of a word is the word's used bits. -/

namespace Sys2Proof

/-! ### Reading the fields of a word put together from fields (R61) -/

section
variable (op : BitVec 4) (role : BitVec 2) (width : BitVec 8) (std pol : BitVec 3) (duplex : Bool) (a b : Word32)

@[simp] theorem opField_packWord : opField (packWord op role width std pol duplex a b) = op := by
  simp (disch := decide) only [opField, packWord, BitVec.extractLsb'_append_eq_of_add_le]
  exact BitVec.extractLsb'_eq_self

@[simp] theorem roleField_packWord : roleField (packWord op role width std pol duplex a b) = role := by
  simp (disch := decide) only [roleField, packWord, BitVec.extractLsb'_append_eq_of_add_le,
    BitVec.extractLsb'_append_eq_of_le]
  exact BitVec.extractLsb'_eq_self

@[simp] theorem widthField_packWord : widthField (packWord op role width std pol duplex a b) = width := by
  simp (disch := decide) only [widthField, packWord, BitVec.extractLsb'_append_eq_of_add_le,
    BitVec.extractLsb'_append_eq_of_le]
  exact BitVec.extractLsb'_eq_self

@[simp] theorem stdField_packWord : stdField (packWord op role width std pol duplex a b) = std := by
  simp (disch := decide) only [stdField, packWord, BitVec.extractLsb'_append_eq_of_add_le,
    BitVec.extractLsb'_append_eq_of_le]
  exact BitVec.extractLsb'_eq_self

@[simp] theorem polField_packWord : polField (packWord op role width std pol duplex a b) = pol := by
  simp (disch := decide) only [polField, packWord, BitVec.extractLsb'_append_eq_of_add_le,
    BitVec.extractLsb'_append_eq_of_le]
  exact BitVec.extractLsb'_eq_self

@[simp] theorem duplexField_packWord : duplexField (packWord op role width std pol duplex a b) = duplex := by
  simp only [duplexField, packWord, BitVec.getLsbD_append]
  simp

@[simp] theorem aField_packWord : aField (packWord op role width std pol duplex a b) = a := by
  simp (disch := decide) only [aField, packWord, BitVec.extractLsb'_append_eq_of_add_le,
    BitVec.extractLsb'_append_eq_of_le]
  exact BitVec.extractLsb'_eq_self

@[simp] theorem bField_packWord : bField (packWord op role width std pol duplex a b) = b := by
  simp (disch := decide) only [bField, packWord, BitVec.extractLsb'_append_eq_of_le]
  exact BitVec.extractLsb'_eq_self

end

/-! ### A word is its fields -/

theorem ofBool_duplexField (cw : CmdWord) : BitVec.ofBool (duplexField cw) = cw.extractLsb' 20 1 := by
  apply BitVec.eq_of_getLsbD_eq
  intro j hj
  obtain rfl : j = 0 := by omega
  simp [duplexField]

/-- A word is its fields and the reserved bits cw[31:21], side by side. -/
theorem fields_append (cw : CmdWord) :
    bField cw ++ aField cw ++ (cw.extractLsb' 21 11 ++ BitVec.ofBool (duplexField cw) ++ polField cw ++ stdField cw ++
      widthField cw ++ roleField cw ++ opField cw) = cw := by
  simp (disch := rfl) only [ofBool_duplexField, bField, aField, polField, stdField, widthField, roleField, opField,
    BitVec.extractLsb'_append_extractLsb'_eq_extractLsb']
  exact BitVec.extractLsb'_eq_self

/-- A mask without the reserved bits acts on a word field by field. -/
theorem and_packWord (cw : CmdWord) (mo : BitVec 4) (mr : BitVec 2) (mw : BitVec 8) (ms mp : BitVec 3) (md : Bool)
    (ma mb : Word32) :
    cw &&& packWord mo mr mw ms mp md ma mb =
      packWord (opField cw &&& mo) (roleField cw &&& mr) (widthField cw &&& mw) (stdField cw &&& ms)
        (polField cw &&& mp) (duplexField cw && md) (aField cw &&& ma) (bField cw &&& mb) := by
  have hreserved : cw.extractLsb' 21 11 &&& 0#11 = 0#11 := BitVec.and_zero
  have hduplex : BitVec.ofBool (duplexField cw) &&& BitVec.ofBool md = BitVec.ofBool (duplexField cw && md) :=
    BitVec.ofBool_and_ofBool
  conv => lhs; rw [← fields_append cw]
  unfold packWord
  rw [BitVec.and_append, BitVec.and_append, BitVec.and_append, BitVec.and_append, BitVec.and_append, BitVec.and_append,
    BitVec.and_append, BitVec.and_append, hreserved, hduplex]

/-! ### The opcode map (R66) -/

theorem opcodeOf_eq_some_iff {x : BitVec 4} {op : Opcode} : opcodeOf x = some op ↔ x = opcodeBits op := by
  revert x
  cases op <;> decide

theorem opcodeOf_eq_none_iff {x : BitVec 4} : opcodeOf x = none ↔ x.toNat ∈ [0x0, 0xD, 0xE, 0xF] := by
  revert x
  decide

theorem opcodeBits_injective {op op' : Opcode} (h : opcodeBits op = opcodeBits op') : op = op' :=
  Option.some.inj ((opcodeOf_eq_some_iff.mpr h).symm.trans (opcodeOf_eq_some_iff.mpr rfl)).symm

/-! ### The rows of R69 -/

theorem matchBits_eq (op : Opcode) : (opcodeRow op).matchBits = (opcodeBits op).setWidth 96 := by
  cases op <;> rfl

/-- A row's mask is the bits its format does not use, and those of `op`. -/
theorem maskBits_eq (op : Opcode) : (opcodeRow op).maskBits = ~~~usedBits (formatOf op) ||| 0xF := by
  cases op <;> rfl

theorem and_opMask (cw : CmdWord) : cw &&& 0xF = (opField cw).setWidth 96 := by
  have hmask : (0xF : CmdWord) = (BitVec.allOnes 4).setWidth 96 := rfl
  apply BitVec.eq_of_getLsbD_eq
  intro j hj
  simp only [hmask, opField, BitVec.getLsbD_and, BitVec.getLsbD_setWidth, BitVec.getLsbD_allOnes,
    BitVec.getLsbD_extractLsb', Nat.zero_add, hj, decide_true, Bool.true_and, Bool.and_comm]

/-- Every format uses the bits of `op`. -/
theorem setWidth_and_not_usedBits (x : BitVec 4) (fmt : Format) : x.setWidth 96 &&& ~~~usedBits fmt = 0#96 := by
  revert x
  cases fmt <;> decide

theorem opField_setWidth (x : BitVec 4) : opField (x.setWidth 96) = x := by
  revert x
  decide

/-- A word belongs to a row exactly when its `op` is the row's and no bit the row's format does not use is 1. -/
theorem opcodeRow_holds_iff {op : Opcode} {cw : CmdWord} :
    (opcodeRow op).holds cw = true ↔ opField cw = opcodeBits op ∧ cw &&& ~~~usedBits (formatOf op) = 0#96 := by
  simp only [OpcodeRow.holds, decide_eq_true_eq, matchBits_eq, maskBits_eq, BitVec.and_or_distrib_left, and_opMask]
  constructor
  · intro h
    have hunused : cw &&& ~~~usedBits (formatOf op) = 0#96 := by
      have hmasked := congrArg (· &&& ~~~usedBits (formatOf op)) h
      simpa [BitVec.and_or_distrib_right, setWidth_and_not_usedBits, BitVec.and_assoc] using hmasked
    rw [hunused, BitVec.zero_or] at h
    exact ⟨by simpa only [opField_setWidth] using congrArg opField h, hunused⟩
  · rintro ⟨hop, hunused⟩
    rw [hunused, hop, BitVec.zero_or]

/-- A word belongs to at most one row, since the `op` values differ (R68). -/
theorem opcodeRow_unique {op op' : Opcode} {cw : CmdWord} (h : (opcodeRow op).holds cw = true)
    (h' : (opcodeRow op').holds cw = true) : op = op' :=
  opcodeBits_injective ((opcodeRow_holds_iff.mp h).1.symm.trans (opcodeRow_holds_iff.mp h').1)

/-- The word of a command belongs to the command's row. -/
theorem opcodeRow_holds_encode (i : Instr) : (opcodeRow (opcodeOfInstr i)).holds (encode i) = true :=
  match i with
  | .solve sourceHz targetHz => Laws.RowMatch.solve sourceHz targetHz
  | .lookup sampleRate => Laws.RowMatch.lookup sampleRate
  | .negotiate role => Laws.RowMatch.negotiate role
  | .init => Laws.RowMatch.init
  | .cfgclk role width duplex sampleRate => Laws.RowMatch.cfgclk role width duplex sampleRate
  | .cfgfmt role width std pol => Laws.RowMatch.cfgfmt role width std pol
  | .activate => Laws.RowMatch.activate
  | .mute => Laws.RowMatch.mute
  | .unmute => Laws.RowMatch.unmute
  | .shutdown => Laws.RowMatch.shutdown
  | .fault => Laws.RowMatch.fault
  | .remove => Laws.RowMatch.remove

/-! ### What decoding answers (R67, R68) -/

theorem decode_of_opField {op : Opcode} {cw : CmdWord} (h : opField cw = opcodeBits op) :
    decode cw =
      if cw &&& ~~~usedBits (formatOf op) = 0#96 then .ok (operandsOf op cw) else .error .unusedBitSet := by
  simp only [decode, opcodeOf_eq_some_iff.mpr h, BitVec.ofNat_eq_ofNat]

theorem decode_of_reserved {cw : CmdWord} (h : opcodeOf (opField cw) = none) : decode cw = .error .reservedOpcode := by
  simp only [decode, h]

theorem decode_of_row {op : Opcode} {cw : CmdWord} (h : (opcodeRow op).holds cw = true) :
    decode cw = .ok (operandsOf op cw) := by
  obtain ⟨hfield, hunused⟩ := opcodeRow_holds_iff.mp h
  rw [decode_of_opField hfield, if_pos hunused]

/-- Decoding has three outcomes: a reserved `op`, one of the twelve with a stray bit, and a word of a row. -/
theorem decode_cases (cw : CmdWord) :
    (opcodeOf (opField cw) = none ∧ decode cw = .error .reservedOpcode) ∨
    (∃ op, opField cw = opcodeBits op ∧ cw &&& ~~~usedBits (formatOf op) ≠ 0#96 ∧ decode cw = .error .unusedBitSet) ∨
    (∃ op, (opcodeRow op).holds cw = true ∧ decode cw = .ok (operandsOf op cw)) := by
  cases hop : opcodeOf (opField cw) with
  | none => exact .inl ⟨rfl, decode_of_reserved hop⟩
  | some op =>
    have hfield := opcodeOf_eq_some_iff.mp hop
    by_cases hunused : cw &&& ~~~usedBits (formatOf op) = 0#96
    · have hrow := opcodeRow_holds_iff.mpr ⟨hfield, hunused⟩
      exact .inr (.inr ⟨op, hrow, decode_of_row hrow⟩)
    · exact .inr (.inl ⟨op, hfield, hunused, by rw [decode_of_opField hfield, if_neg hunused]⟩)

/-- A word decodes to the operands of the row it belongs to, and to nothing else. -/
theorem decode_eq_ok_iff {cw : CmdWord} {i : Instr} :
    decode cw = .ok i ↔ ∃ op, (opcodeRow op).holds cw = true ∧ operandsOf op cw = i := by
  constructor
  · intro h
    rcases decode_cases cw with ⟨-, he⟩ | ⟨op, -, -, he⟩ | ⟨op, hrow, hok⟩
    · simp [he] at h
    · simp [he] at h
    · exact ⟨op, hrow, Except.ok.inj (hok.symm.trans h)⟩
  · rintro ⟨op, hrow, rfl⟩
    exact decode_of_row hrow

theorem decode_eq_reservedOpcode_iff {cw : CmdWord} :
    decode cw = .error .reservedOpcode ↔ opcodeOf (opField cw) = none := by
  refine ⟨fun h => ?_, decode_of_reserved⟩
  rcases decode_cases cw with ⟨hop, -⟩ | ⟨op, -, -, he⟩ | ⟨op, -, hok⟩
  · exact hop
  · simp [he] at h
  · simp [hok] at h

theorem decode_eq_unusedBitSet_iff {cw : CmdWord} :
    decode cw = .error .unusedBitSet ↔
      ∃ op, opField cw = opcodeBits op ∧ cw &&& ~~~usedBits (formatOf op) ≠ 0#96 := by
  constructor
  · intro h
    rcases decode_cases cw with ⟨-, he⟩ | ⟨op, hfield, hused, -⟩ | ⟨op, -, hok⟩
    · simp [he] at h
    · exact ⟨op, hfield, hused⟩
    · simp [hok] at h
  · rintro ⟨op, hfield, hused⟩
    rw [decode_of_opField hfield, if_neg hused]

/-! ### Operands and their encoding (R62, R63) -/

@[simp] theorem opcodeOfInstr_operandsOf (op : Opcode) (cw : CmdWord) : opcodeOfInstr (operandsOf op cw) = op := by
  cases op <;> rfl

/-- The operands of a word fit, having come out of its fields. -/
theorem wellFormed_operandsOf (op : Opcode) (cw : CmdWord) : WellFormed (operandsOf op cw) = true := by
  have hhz (x : Word32) : fitsHz x.toNat = true := decide_eq_true x.isLt
  have hwidth (x : BitVec 8) : fitsWidth x.toNat = true := decide_eq_true x.isLt
  cases op <;> simp only [operandsOf, WellFormed, hhz, hwidth, Bool.and_self]

/-- The operands of the word of a command are the command's, where they fit their fields. -/
theorem operandsOf_encode {i : Instr} (h : WellFormed i = true) : operandsOf (opcodeOfInstr i) (encode i) = i := by
  have hhz {f : Nat} (hf : fitsHz f = true) : (BitVec.ofNat 32 f).toNat = f :=
    (BitVec.toNat_ofNat f 32).trans (Nat.mod_eq_of_lt (of_decide_eq_true hf))
  have hwidth {w : Nat} (hw : fitsWidth w = true) : (BitVec.ofNat 8 w).toNat = w :=
    (BitVec.toNat_ofNat w 8).trans (Nat.mod_eq_of_lt (of_decide_eq_true hw))
  cases i with
  | solve sourceHz targetHz =>
    obtain ⟨hs, ht⟩ : fitsHz sourceHz = true ∧ fitsHz targetHz = true := by simpa [WellFormed] using h
    simp only [opcodeOfInstr, encode, operandsOf, aField_packWord, bField_packWord, hhz hs, hhz ht]
  | lookup sampleRate => simp only [opcodeOfInstr, encode, operandsOf, aField_packWord, hhz h]
  | negotiate role => simp only [opcodeOfInstr, encode, operandsOf, roleField_packWord]
  | cfgclk role width duplex sampleRate =>
    obtain ⟨hw, hf⟩ : fitsWidth width = true ∧ fitsHz sampleRate = true := by simpa [WellFormed] using h
    simp only [opcodeOfInstr, encode, operandsOf, roleField_packWord, widthField_packWord, duplexField_packWord,
      aField_packWord, hwidth hw, hhz hf]
  | cfgfmt role width std pol =>
    simp only [opcodeOfInstr, encode, operandsOf, roleField_packWord, widthField_packWord, stdField_packWord,
      polField_packWord, hwidth h]
  | init | activate | mute | unmute | shutdown | fault | remove => rfl

/-! The used bits of each format, field by field. -/

theorem usedBits_z : usedBits .z = packWord (BitVec.allOnes 4) 0 0 0 0 false 0 0 := rfl
theorem usedBits_s :
    usedBits .s = packWord (BitVec.allOnes 4) 0 0 0 0 false (BitVec.allOnes 32) (BitVec.allOnes 32) := rfl
theorem usedBits_l : usedBits .l = packWord (BitVec.allOnes 4) 0 0 0 0 false (BitVec.allOnes 32) 0 := rfl
theorem usedBits_n : usedBits .n = packWord (BitVec.allOnes 4) (BitVec.allOnes 2) 0 0 0 false 0 0 := rfl
theorem usedBits_c :
    usedBits .c =
      packWord (BitVec.allOnes 4) (BitVec.allOnes 2) (BitVec.allOnes 8) 0 0 true (BitVec.allOnes 32) 0 := rfl
theorem usedBits_f :
    usedBits .f =
      packWord (BitVec.allOnes 4) (BitVec.allOnes 2) (BitVec.allOnes 8) (BitVec.allOnes 3) (BitVec.allOnes 3) false
        0 0 := rfl

/-- Encoding the operands a command takes from a word gives the bits of the word that the command's format uses. -/
theorem encode_operandsOf {op : Opcode} {cw : CmdWord} (h : opField cw = opcodeBits op) :
    encode (operandsOf op cw) = cw &&& usedBits (formatOf op) := by
  cases op <;>
    simp only [operandsOf, encode, formatOf, usedBits_z, usedBits_s, usedBits_l, usedBits_n, usedBits_c, usedBits_f,
      and_packWord, h, BitVec.and_allOnes, BitVec.and_zero, BitVec.ofNat_eq_ofNat, BitVec.ofNat_toNat,
      BitVec.setWidth_eq, Bool.and_true, Bool.and_false]

theorem and_usedBits_of_row {op : Opcode} {cw : CmdWord} (h : (opcodeRow op).holds cw = true) :
    cw &&& usedBits (formatOf op) = cw := by
  obtain ⟨-, hunused⟩ := opcodeRow_holds_iff.mp h
  calc cw &&& usedBits (formatOf op)
      = (cw &&& usedBits (formatOf op)) ||| (cw &&& ~~~usedBits (formatOf op)) := by rw [hunused, BitVec.or_zero]
    _ = cw &&& (usedBits (formatOf op) ||| ~~~usedBits (formatOf op)) := BitVec.and_or_distrib_left.symm
    _ = cw := by rw [BitVec.or_not_self, BitVec.and_allOnes]

/-! ### The obligations about the command word -/

/-- Settles O1: the word of a command belongs to the command's row, and its fields give the operands back. -/
theorem decodeOfEncodeIsTheCommand : Obligations.DecodeOfEncodeIsTheCommand := by
  intro i hi
  exact decode_eq_ok_iff.mpr ⟨opcodeOfInstr i, opcodeRow_holds_encode i, operandsOf_encode hi⟩

/-- Settles O2: the encoding of a legal word's operands is the word's used bits, which are all it has. -/
theorem encodeOfDecodeIsTheWord : Obligations.EncodeOfDecodeIsTheWord := by
  intro cw i hdecode
  obtain ⟨op, hrow, rfl⟩ := decode_eq_ok_iff.mp hdecode
  obtain ⟨hfield, -⟩ := opcodeRow_holds_iff.mp hrow
  exact ⟨wellFormed_operandsOf op cw, (encode_operandsOf hfield).trans (and_usedBits_of_row hrow)⟩

theorem opcodeRow_holds_iff_decode {op : Opcode} {cw : CmdWord} :
    (opcodeRow op).holds cw = true ↔ ∃ i, decode cw = .ok i ∧ opcodeOfInstr i = op := by
  constructor
  · exact fun hrow => ⟨_, decode_of_row hrow, opcodeOfInstr_operandsOf op cw⟩
  · rintro ⟨i, hdecode, rfl⟩
    obtain ⟨op, hrow, rfl⟩ := decode_eq_ok_iff.mp hdecode
    rwa [opcodeOfInstr_operandsOf]

theorem no_opcodeRow_iff_decode_error {cw : CmdWord} :
    (∀ op, (opcodeRow op).holds cw = false) ↔ ∃ e, decode cw = .error e := by
  constructor
  · intro hnone
    cases hdecode : decode cw with
    | error e => exact ⟨e, rfl⟩
    | ok i =>
      obtain ⟨op, hrow, -⟩ := decode_eq_ok_iff.mp hdecode
      exact absurd hrow (by simp [hnone op])
  · rintro ⟨e, he⟩ op
    by_contra hrow
    rw [decode_of_row (by simpa using hrow)] at he
    cases he

/-- Settles O3: decoding is the row a word belongs to, and distinct rows have distinct `op` values. -/
theorem decodingIsTheMatchMaskTable : Obligations.DecodingIsTheMatchMaskTable :=
  fun _ => ⟨fun _ => opcodeRow_holds_iff_decode, fun _ _ => opcodeRow_unique, no_opcodeRow_iff_decode_error⟩

/-- A word meets the complement of a mask exactly when some bit of it is 1 that the mask leaves out. -/
theorem and_not_ne_zero_iff {cw u : CmdWord} :
    cw &&& ~~~u ≠ 0#96 ↔ ∃ k, k < 96 ∧ cw.getLsbD k = true ∧ u.getLsbD k = false := by
  have hbit {k : Nat} (hk : k < 96) :
      (cw &&& ~~~u).getLsbD k ≠ (0#96).getLsbD k ↔ cw.getLsbD k = true ∧ u.getLsbD k = false := by
    simp [hk]
  simp only [Ne, BitVec.eq_of_getLsbD_eq_iff, not_forall, exists_prop]
  exact exists_congr fun k => and_congr_right hbit

/-- Settles O4: an `op` is reserved exactly when no command has it, and a stray bit is a bit outside the mask of the
format's used ones. -/
theorem illegalWordsAreReservedOpsAndUnusedBits : Obligations.IllegalWordsAreReservedOpsAndUnusedBits := by
  intro cw
  refine ⟨decode_eq_reservedOpcode_iff.trans opcodeOf_eq_none_iff, ?_⟩
  simp only [decode_eq_unusedBitSet_iff, and_not_ne_zero_iff]

/-- Settles O5: each word is the encoding of its command. -/
theorem writtenWordsDecode : Obligations.WrittenWordsDecode :=
  ⟨decodeOfEncodeIsTheCommand (.cfgclk 1 16 false 44100) rfl, decodeOfEncodeIsTheCommand (.cfgfmt 0 24 1 2) rfl,
    decodeOfEncodeIsTheCommand (.solve 12000000 22579200) rfl, decodeOfEncodeIsTheCommand (.lookup 48000) rfl,
    decodeOfEncodeIsTheCommand (.negotiate 1) rfl, decodeOfEncodeIsTheCommand .shutdown rfl⟩

end Sys2Proof

namespace Sys2Proof.Machine

/-! ### The response word (R70) -/

theorem toNat_append_eq_add {v w : Nat} (x : BitVec v) (y : BitVec w) :
    (x ++ y).toNat = 2 ^ w * x.toNat + y.toNat := by
  rw [BitVec.toNat_append, ← Nat.shiftLeft_add_eq_or_of_lt y.isLt, Nat.shiftLeft_eq, Nat.mul_comm]

theorem toNat_responseWord (status : Status) (st : SeqState) (seqPc : BitVec 8) (r0 r1 : Word32) :
    (responseWord status st seqPc r0 r1).toNat = (statusCode status).toNat + 8 * (seqStateCode st).toNat +
      64 * seqPc.toNat + 2 ^ 32 * r0.toNat + 2 ^ 64 * r1.toNat := by
  simp only [responseWord, toNat_append_eq_add, BitVec.toNat_ofNat]
  omega

/-- Settles O21: each field put below the word so far moves it up by the field's width. -/
theorem responseWordFields : Obligations.ResponseWordFields :=
  ⟨toNat_responseWord, rfl, rfl⟩

end Sys2Proof.Machine

/-! SOLVE and the PLL's image (40_pll_solver.md).  Three facts carry the rules: dividing by ten after adding five is
rounding the exact ratio half up, the remainder of the division is below the effective source, and the bits put at
distinct positions of a register are read back from them. -/

namespace Sys2Proof.Machine

/-! ### The command -/

theorem returnOk_startCommand (r0 r1 : Word32) (s : State) :
    returnOk r0 r1 s.startCommand = answeredWith s r0 r1 := rfl

theorem raise_startCommand (e : Status) (s : State) : raise e s.startCommand = rejected s e := rfl

theorem pllDivWord_eq (d : PllDivision) :
    pllDivWord d = BitVec.ofNat 32 (d.preDivide.toNat * 2 ^ 28 + d.n.toNat * 2 ^ 24 + d.k.toNat) := by
  have hpre : d.preDivide.toNat < 2 := d.preDivide.toNat_lt
  have hn : d.n.toNat < 2 ^ 4 := d.n.isLt
  have hk : d.k.toNat < 2 ^ 24 := d.k.isLt
  apply BitVec.eq_of_toNat_eq
  simp only [pllDivWord, toNat_append_eq_add, BitVec.toNat_ofBool, BitVec.toNat_ofNat]
  omega

/-- Settles O22: SOLVE returns the word of the division, or raises its error, on a block that has begun a command. -/
theorem solveAnswersTheDivision : Obligations.SolveAnswersTheDivision := by
  intro s src tgt hidle
  simp only [exec, execSolve, whenIdle_idle hidle, State.startCommand_cfg]
  refine ⟨fun d hd => ?_, fun hnone => ?_⟩
  · rw [hd, ← pllDivWord_eq, ← returnOk_startCommand]
  · rw [hnone, ← raise_startCommand]

/-! ### The rounding (R97, R100) -/

/-- Rounding half up is the floor, plus 1 where twice the remainder is the divisor or more. -/
theorem roundHalfUp_eq_floor_add {b : Nat} (hb : 0 < b) (x : Nat) :
    (2 * x + b) / (2 * b) = x / b + (if b ≤ 2 * (x % b) then 1 else 0) := by
  have hr : x % b < b := Nat.mod_lt x hb
  have hx : 2 * x + b = 2 * (x % b) + b + 2 * b * (x / b) := by
    have hdiv := Nat.mod_add_div x b
    rw [Nat.mul_assoc]
    omega
  rw [hx, Nat.add_mul_div_left _ _ (by omega), Nat.add_comm]
  congr 1
  split
  case isTrue hup => exact Nat.div_eq_of_lt_le (by omega) (by omega)
  case isFalse hdown => exact Nat.div_eq_of_lt (by omega)

/-- Rounding half up misses the exact ratio by at most one half. -/
theorem roundHalfUp_near {b : Nat} (hb : 0 < b) (x : Nat) :
    2 * (b * ((2 * x + b) / (2 * b))) ≤ 2 * x + b ∧ 2 * x ≤ 2 * (b * ((2 * x + b) / (2 * b))) + b := by
  have hdiv := Nat.div_add_mod (2 * x + b) (2 * b)
  have hmod : (2 * x + b) % (2 * b) < 2 * b := Nat.mod_lt _ (by omega)
  rw [Nat.mul_assoc] at hdiv
  omega

theorem pllK10_thisHardware (m src : Nat) : pllK10 thisHardware m src = m * 167772160 / src := rfl

theorem pllK25_thisHardware (m src : Nat) : pllK25 thisHardware m src = (pllK10 thisHardware m src + 5) / 10 := rfl

/-- The two steps of the rounding are one division (R97). -/
theorem pllK25_eq_roundHalfUp {src : Nat} (hsrc : 0 < src) (m : Nat) :
    pllK25 thisHardware m src = (2 * (m * 2 ^ 24) + src) / (2 * src) := by
  calc pllK25 thisHardware m src
      = (m * 167772160 / src + 5) / 10 := rfl
    _ = (m * 167772160 + 5 * src) / src / 10 := by rw [Nat.add_mul_div_right _ _ hsrc]
    _ = (5 * (2 * (m * 2 ^ 24) + src)) / (5 * (2 * src)) := by
        rw [Nat.div_div_eq_div_mul]
        congr 1 <;> ring
    _ = (2 * (m * 2 ^ 24) + src) / (2 * src) := Nat.mul_div_mul_left _ _ (by decide)

/-- Settles O25: the two steps are one division, and the rest is what rounding half up does. -/
theorem solveRoundsHalfUp : Obligations.SolveRoundsHalfUp := by
  refine ⟨fun m src hm => ?_, ⟨rfl, rfl, by decide⟩, fun src tgt d hd => ?_⟩
  · have hsrc : 0 < src := by omega
    refine ⟨?_, rfl, ?_, ?_⟩
    · rw [Nat.mul_assoc]
      exact pllK25_eq_roundHalfUp hsrc m
    · rw [pllK25_thisHardware]
      split <;> omega
    · rw [pllK25_eq_roundHalfUp hsrc, roundHalfUp_eq_floor_add hsrc]
  · obtain ⟨eff, heff, -, -, -, -, -, hk⟩ := solve_thisHardware_eq_some hd
    rw [Nat.mul_comm tgt 4] at hk
    exact ⟨eff, heff, hk⟩

theorem pllK10_le {m src : Nat} (hm : m < src) : pllK10 thisHardware m src ≤ 167772159 := by
  have hlt : m * 167772160 / src < 167772160 := Nat.div_lt_of_lt_mul (by omega)
  rw [pllK10_thisHardware]
  omega

/-- The scaled fraction rounds up to one whole exactly where the remainder is within 5 parts in `167772160` of the
effective source. -/
theorem le_pllK10_iff {m src : Nat} (hm : m < src) :
    167772155 ≤ pllK10 thisHardware m src ↔ 167772160 * (src - m) ≤ 5 * src := by
  rw [pllK10_thisHardware, Nat.le_div_iff_mul_le (by omega)]
  omega

/-- Settles O26: with `k10` below 2^24 times 10, the rounded fraction is 2^24 from `k10 = 167772155` on. -/
theorem solveFractionRange : Obligations.SolveFractionRange := by
  intro m src hm
  have hk10 : pllK10 thisHardware m src ≤ 167772159 := pllK10_le hm
  have hover : pllK25 thisHardware m src = 16777216 ↔ 167772155 ≤ pllK10 thisHardware m src := by
    rw [pllK25_thisHardware]
    omega
  refine ⟨hk10, ?_, hover, hover.trans (le_pllK10_iff hm), (hover.trans (le_pllK10_iff hm)).trans ?_⟩
  · rw [pllK25_thisHardware]
    omega
  · rw [Nat.le_div_iff_mul_le (by decide)]
    omega

/-! ### The division and the operands SOLVE accepts (R96, R101) -/

/-- Settles O24: the quotient and the remainder of a division by the effective source. -/
theorem solveDivisionIdentity : Obligations.SolveDivisionIdentity := by
  intro src tgt d hd
  obtain ⟨eff, heff, hpos, -, hmin, hmax, hn, -⟩ := solve_thisHardware_eq_some hd
  refine ⟨eff, 4 * tgt % eff, heff, Nat.mod_lt _ hpos, ?_, by omega, by omega⟩
  rw [hn, Nat.mul_comm tgt 4, Nat.div_add_mod']

theorem quotient_in_range_iff {x b : Nat} (hb : 0 < b) : 6 ≤ x / b ∧ x / b ≤ 12 ↔ 6 * b ≤ x ∧ x < 13 * b := by
  rw [Nat.le_div_iff_mul_le hb, ← Nat.lt_succ_iff (m := x / b), Nat.div_lt_iff_lt_mul hb]

/-- Which operands SOLVE accepts on this hardware (R101). -/
theorem solve_thisHardware_ne_none_iff {src : Nat} (hsrc : 0 < src) (tgt : Nat) :
    solve thisHardware src tgt ≠ none ↔
      (6 * src ≤ 4 * tgt ∧ 4 * tgt < 13 * src) ∨
        (4 * tgt < 6 * src ∧ 0 < src / 2 ∧ 6 * (src / 2) ≤ 4 * tgt ∧ 4 * tgt < 13 * (src / 2)) := by
  simp only [solve_thisHardware, hsrc.ne', if_false, Nat.div_lt_iff_lt_mul hsrc, Nat.mul_comm tgt 4]
  by_cases hhalve : 4 * tgt < 6 * src
  · rw [if_pos hhalve]
    by_cases hhalf : src / 2 = 0
    · rw [if_pos hhalf]
      exact iff_of_false (fun h => h rfl) (by omega)
    · have hpos : 0 < src / 2 := by omega
      rw [if_neg hhalf, divideBy_thisHardware_ne_none, quotient_in_range_iff hpos]
      omega
  · rw [if_neg hhalve, divideBy_thisHardware_ne_none, quotient_in_range_iff hsrc]
    omega

/-- Halving an even divisor doubles the quotient, or makes it one more than the double. -/
theorem div_half_of_even {src : Nat} (heven : src % 2 = 0) (x : Nat) : x / (src / 2) / 2 = x / src := by
  rw [Nat.div_div_eq_div_mul, Nat.div_mul_cancel (Nat.dvd_of_mod_eq_zero heven)]

/-- How near the division comes to four times the target, where the fraction does not overflow (R101). -/
theorem solve_thisHardware_near {tgt eff : Nat} {d : PllDivision} (hpos : 0 < eff) (hn : d.n.toNat = 4 * tgt / eff)
    (hk : d.k.toNat = pllK25 thisHardware (4 * tgt % eff) eff) :
    2 * (eff * (d.n.toNat * 2 ^ 24 + d.k.toNat)) ≤ 2 * (4 * tgt * 2 ^ 24) + eff ∧
      2 * (4 * tgt * 2 ^ 24) ≤ 2 * (eff * (d.n.toNat * 2 ^ 24 + d.k.toNat)) + eff := by
  have hnear := roundHalfUp_near hpos (4 * tgt % eff * 2 ^ 24)
  rw [← pllK25_eq_roundHalfUp hpos, ← hk] at hnear
  have hdiv : eff * d.n.toNat + 4 * tgt % eff = 4 * tgt := by rw [hn, Nat.div_add_mod]
  have hsum : eff * (d.n.toNat * 2 ^ 24 + d.k.toNat) = eff * d.n.toNat * 2 ^ 24 + eff * d.k.toNat := by ring
  omega

/-- Settles O23: the accepted operands, the quotients that halving an even source gives, and the rounding error. -/
theorem solveOperandsThatSucceed : Obligations.SolveOperandsThatSucceed := by
  refine ⟨fun src tgt hsrc => ⟨solve_thisHardware_ne_none_iff hsrc tgt, fun d hd => ?_, fun heven => ?_⟩,
    fun tgt => rfl, fun src tgt d hd => ?_⟩
  · obtain ⟨eff, -, -, hpre, -⟩ := solve_thisHardware_eq_some hd
    rw [hpre, Nat.div_lt_iff_lt_mul hsrc, Nat.mul_comm tgt 4]
  · have hhalf : 4 * tgt / (src / 2) / 2 = 4 * tgt / src := div_half_of_even heven (4 * tgt)
    refine ⟨by omega, by omega, by omega, fun hsmall => ?_⟩
    have hbelow : 4 * tgt < 3 * src := (Nat.div_lt_iff_lt_mul hsrc).mp (by omega)
    by_contra hsome
    rw [← ne_eq, solve_thisHardware_ne_none_iff hsrc] at hsome
    omega
  · obtain ⟨eff, heff, hpos, -, -, -, hn, hk⟩ := solve_thisHardware_eq_some hd
    rw [Nat.mul_comm tgt 4] at hn hk
    refine ⟨eff, heff, fun hfits => ?_⟩
    rw [Nat.mod_eq_of_lt hfits] at hk
    exact solve_thisHardware_near hpos hn hk

/-! ### The image in the PLL registers, read back (R103, R104) -/

/-- One bit put below the others already placed. -/
theorem getLsbD_placeBits_cons {p : Nat} (hp : p < 16) (ps : List Nat) (b : Bool) (bs : List Bool) (q : Nat) :
    (placeBits (p :: ps) (b :: bs)).getLsbD q = (decide (q = p) && b || (placeBits ps bs).getLsbD q) := by
  rw [placeBits, BitVec.getLsbD_or, BitVec.getLsbD_shiftLeft, BitVec.getLsbD_setWidth, BitVec.getLsbD_ofBool]
  congr 1
  rcases Nat.lt_trichotomy q p with hlt | rfl | hgt
  · simp [hlt, hlt.ne]
  · simp [hp]
  · have hne : q - p ≠ 0 := by omega
    simp [hgt.ne', hne]

/-- No bit is put anywhere else. -/
theorem getLsbD_placeBits_of_notMem {ps : List Nat} (hps : ∀ p ∈ ps, p < 16) (bs : List Bool) {q : Nat}
    (hq : q ∉ ps) : (placeBits ps bs).getLsbD q = false := by
  induction ps generalizing bs with
  | nil => simp [placeBits]
  | cons p ps ih =>
    cases bs with
    | nil => simp [placeBits]
    | cons b bs =>
      rw [List.mem_cons, not_or] at hq
      obtain ⟨hqp, hqps⟩ := hq
      rw [getLsbD_placeBits_cons (hps p (by simp)), ih (fun r hr => hps r (by simp [hr])) bs hqps]
      simp [hqp]

/-- The bits put at distinct positions are read back from them, in order. -/
theorem map_getLsbD_placeBits {ps : List Nat} (hps : ∀ p ∈ ps, p < 16) (hnodup : ps.Nodup) {bs : List Bool}
    (hlen : ps.length = bs.length) : ps.map (placeBits ps bs).getLsbD = bs := by
  induction ps generalizing bs with
  | nil => exact (List.length_eq_zero_iff.mp hlen.symm).symm
  | cons p ps ih =>
    cases bs with
    | nil => cases hlen
    | cons b bs =>
      obtain ⟨hp, hrest⟩ := List.nodup_cons.mp hnodup
      have hlt : p < 16 := hps p (by simp)
      have hpsLt : ∀ r ∈ ps, r < 16 := fun r hr => hps r (by simp [hr])
      have hhead : (placeBits (p :: ps) (b :: bs)).getLsbD p = b := by
        simp [getLsbD_placeBits_cons hlt, getLsbD_placeBits_of_notMem hpsLt bs hp]
      have htail : ps.map (placeBits (p :: ps) (b :: bs)).getLsbD = ps.map (placeBits ps bs).getLsbD := by
        refine List.map_congr_left fun q hq => ?_
        have hne : q ≠ p := fun h => hp (h ▸ hq)
        simp [getLsbD_placeBits_cons hlt, hne]
      rw [List.map_cons, hhead, htail, ih hpsLt hrest (Nat.succ.inj hlen)]

theorem mem_freeBits {pm : Word16} {p : Nat} : p ∈ freeBits pm ↔ p < 16 ∧ pm.getLsbD p = false := by
  simp [freeBits]

theorem nodup_freeBits (pm : Word16) : (freeBits pm).Nodup := List.nodup_range.filter _

/-- The positions a mask leaves hold, after the merge, the bits of the division (R102). -/
theorem map_getLsbD_merged_place {pm : Word16} (hfive : (freeBits pm).length = 5) (t : Word16) (d : PllDivision) :
    (freeBits pm).map ((t &&& pm) ||| place pm d).getLsbD = ctrlBits d := by
  have hplaced : (freeBits pm).map (place pm d).getLsbD = ctrlBits d :=
    map_getLsbD_placeBits (fun p hp => (mem_freeBits.mp hp).1) (nodup_freeBits pm) hfive
  rw [← hplaced]
  refine List.map_congr_left fun p hp => ?_
  simp [getLsbD_merged (place_free pm d), (mem_freeBits.mp hp).2]

theorem append_four_bits (n : BitVec 4) :
    BitVec.ofBool (n.getLsbD 3) ++ BitVec.ofBool (n.getLsbD 2) ++ BitVec.ofBool (n.getLsbD 1) ++
      BitVec.ofBool (n.getLsbD 0) = n := by
  revert n
  decide

theorem kHi_append_kLo (d : PllDivision) : (kHi d).extractLsb' 0 8 ++ kLo d = d.k := by
  have hk : d.k.toNat < 2 ^ 24 := d.k.isLt
  apply BitVec.eq_of_toNat_eq
  rw [toNat_append_eq_add, BitVec.extractLsb'_toNat, Nat.shiftRight_zero, toNat_kHi, toNat_kLo]
  omega

/-- `decode_pll` gives back the division whose bits the control register holds at the positions the mask leaves. -/
theorem decodePll_of_bits {pm ctrl : Word16} {d : PllDivision}
    (hbits : (freeBits pm).map ctrl.getLsbD = ctrlBits d) : decodePll pm ctrl (kHi d) (kLo d) = d := by
  have hbit (i : Nat) : ctrl.getLsbD ((freeBits pm).getD i 16) = (ctrlBits d).getD i (ctrl.getLsbD 16) := by
    rw [← hbits, List.getD_map]
  simp only [decodePll, hbit, kHi_append_kLo]
  exact congrArg (PllDivision.mk d.preDivide · d.k) (append_four_bits d.n)

/-- Settles O49: the merge leaves the bits of the division where the mask leaves room for them. -/
theorem pllImageRoundTripForEveryMask : Obligations.PllImageRoundTripForEveryMask :=
  fun _ t d hfive => decodePll_of_bits (map_getLsbD_merged_place hfive t d)

/-- Settles O48: `CAP_REF`'s mask is one of those that leave five bits. -/
theorem pllImageRoundTrip : Obligations.PllImageRoundTrip :=
  ⟨fun t d => pllImageRoundTripForEveryMask 0xFFE0 t d (congrArg List.length freeBits_ref), by decide⟩

end Sys2Proof.Machine

/-! LOOKUP (41_divider_tables.md).  The eleven recognised rates stand in one list: on each of them `lookup` answers the
listed row and target, and a rate that is not in the list has no row, so it gets the fallback. -/

namespace Sys2Proof.Machine

/-! ### The row map and the targets (R111 to R113) -/

/-- The recognised sample rates, each with its row (R111) and its target internal clock (R112) on this hardware. -/
def rateTable : List (Nat × Nat × Nat) :=
  [(8000, 0, 12288000), (11025, 1, 11289600), (12000, 2, 12288000), (16000, 3, 12288000), (22050, 4, 11289600),
    (24000, 5, 12288000), (32000, 6, 12288000), (44100, 7, 11289600), (48000, 8, 12288000), (88200, 9, 11289600),
    (96000, 10, 12288000)]

theorem lookup_of_mem_rateTable : ∀ e ∈ rateTable, lookup thisHardware e.1 = ⟨e.2.1, e.2.2⟩ := by decide

theorem rowOf_eq_none_of_not_listed {rate : Nat} (h : ∀ e ∈ rateTable, rate ≠ e.1) : rowOf rate = none := by
  unfold rowOf
  split
  case h_12 => rfl
  all_goals simp [rateTable] at h

/-- A rate that is not listed gets the whole result of 44,100 Hz (R113). -/
theorem lookup_of_not_listed {rate : Nat} (h : ∀ e ∈ rateTable, rate ≠ e.1) :
    lookup thisHardware rate = ⟨7, 11289600⟩ := by
  rw [lookup, rowOf_eq_none_of_not_listed h]
  rfl

/-- `lookup` on this hardware is the table, with the row and target of 44,100 Hz where it lists nothing. -/
theorem lookup_eq_rateTable (rate : Nat) :
    lookup thisHardware rate = let e := (rateTable.lookup rate).getD (7, 11289600); ⟨e.1, e.2⟩ := by
  cases hrate : rateTable.lookup rate with
  | none =>
    rw [List.lookup_eq_none_iff] at hrate
    exact lookup_of_not_listed fun e he => by simpa using hrate e he
  | some e =>
    obtain ⟨before, after, hsplit, -⟩ := List.lookup_eq_some_iff.mp hrate
    exact lookup_of_mem_rateTable (rate, e) (by simp [hsplit])

/-! ### The command -/

/-- The four bits of a DividerSelection hold every row that LOOKUP can answer. -/
theorem lookup_row_lt (rate : Nat) : (lookup thisHardware rate).row < 2 ^ 4 := by
  obtain ⟨-, hrow | hrow⟩ := lookup_cases thisHardware rate
  · omega
  · rw [hrow]
    decide

theorem setWidth_row (rate : Nat) :
    (BitVec.ofNat 4 (lookup thisHardware rate).row).setWidth 32 = BitVec.ofNat 32 (lookup thisHardware rate).row := by
  apply BitVec.eq_of_toNat_eq
  rw [BitVec.toNat_setWidth, BitVec.toNat_ofNat, BitVec.toNat_ofNat, Nat.mod_eq_of_lt (lookup_row_lt rate)]

theorem exec_lookup {s : State} (hidle : Idle s) (hs : OnThisHardware s) (rate : Nat) :
    exec (.lookup rate) s = .next (answeredWith s (BitVec.ofNat 32 (lookup thisHardware rate).row)
      (BitVec.ofNat 32 (lookup thisHardware rate).targetHz)) := by
  simp only [exec, execLookup, whenIdle_idle hidle, State.startCommand_cfg, hs, setWidth_row, returnOk_startCommand]

/-- Settles O27: LOOKUP returns the selection of `lookup`, and that is the table's. -/
theorem lookupAnswersTheTable : Obligations.LookupAnswersTheTable := by
  intro s rate hidle hs
  rw [exec_lookup hidle hs, lookup_eq_rateTable]
  rfl

end Sys2Proof.Machine

/-! The invariant and the transition table (10_state.md R22, R23, 42_codec_sequencer.md R120 to R122, R150).  A command
that ends leaves an idle block whose response carries its state, a plan step hands the invariant on, and a meaning
starts from it; what `st` does follows the same cases. -/

namespace Sys2Proof.Machine

/-! ### The invariant, by its parts -/

/-- What `flightOk` asks of a command in flight, by name. -/
structure FlightInv (s : State) (f : Flight) : Prop where
  cap : capWf s.cfg = true
  plan : planWf s.cfg.cap f.plan = true
  seqPc : s.seqPc.toNat < f.plan.length
  trace : s.trace.length = s.seqPc.toNat
  response : s.response = none
  moves : planMoves s.st f.dest = true
  r0 : s.r0 = 0
  r1 : s.r1 = 0

theorem flightOk_iff {s : State} {f : Flight} : flightOk s f = true ↔ FlightInv s f := by
  simp only [flightOk, Bool.and_eq_true, decide_eq_true_eq]
  constructor
  · rintro ⟨⟨⟨⟨⟨⟨⟨hcap, hplan⟩, hpc⟩, htrace⟩, hresponse⟩, hmoves⟩, hr0⟩, hr1⟩
    exact ⟨hcap, hplan, hpc, htrace, hresponse, hmoves, hr0, hr1⟩
  · rintro ⟨hcap, hplan, hpc, htrace, hresponse, hmoves, hr0, hr1⟩
    exact ⟨⟨⟨⟨⟨⟨⟨hcap, hplan⟩, hpc⟩, htrace⟩, hresponse⟩, hmoves⟩, hr0⟩, hr1⟩

theorem flightInv_of_inv {s : State} {f : Flight} (hinv : BlockInv s = true) (hf : s.flight = some f) :
    FlightInv s f := by
  obtain ⟨-, -, hok⟩ := (inv_flight hf).mp hinv
  exact flightOk_iff.mp hok

theorem codec_wf_of_inv {s : State} (hinv : BlockInv s = true) : s.codec.wf = true := by
  simp only [BlockInv, Bool.and_eq_true] at hinv
  obtain ⟨⟨hwf, -⟩, -⟩ := hinv
  exact hwf

theorem seqPc_le_of_inv {s : State} (hinv : BlockInv s = true) : s.seqPc.toNat ≤ longestPlan := by
  simp only [BlockInv, Bool.and_eq_true, decide_eq_true_eq] at hinv
  obtain ⟨⟨-, hpc⟩, -⟩ := hinv
  exact hpc

theorem idleOk_of_inv {s : State} (hinv : BlockInv s = true) (hidle : Idle s) :
    s.st ≠ .shuttingDown ∧ ∀ w, s.response = some w → respSt w = seqStateCode s.st := by
  obtain ⟨-, -, hok⟩ := (inv_idle hidle).mp hinv
  simp only [idleOk, Bool.and_eq_true, decide_eq_true_eq] at hok
  obtain ⟨⟨⟨⟨hst, -⟩, -⟩, -⟩, hresponse⟩ := hok
  refine ⟨hst, fun w hw => ?_⟩
  simpa [hw] using hresponse

/-! ### Every step keeps it -/

/-- However a command ends, the block is idle and the response carries its state (R70). -/
theorem inv_endCommand {s : State} (hwf : s.codec.wf = true) (hpc : s.seqPc.toNat ≤ longestPlan)
    (hst : s.st ≠ .shuttingDown) (e : Status) : BlockInv (s.endCommand e) = true := by
  refine (inv_idle (State.endCommand_flight e s)).mpr ⟨hwf, hpc, ?_⟩
  simp [idleOk, hst, respSt_responseWord]

/-- No plan leads to ShuttingDown: the state is seen during a plan only (R150). -/
theorem planMoves_dest_ne_shuttingDown {st dest : SeqState} (h : planMoves st dest = true) : dest ≠ .shuttingDown := by
  rintro rfl
  cases st <;> simp [planMoves] at h

/-- What a completed plan step leaves as it was in the state `t` it hands to `stepDone`, beside what `StepCompletes`
says of it. -/
structure StepFrame (s t : State) : Prop where
  st : t.st = s.st
  cfg : t.cfg = s.cfg
  response : t.response = s.response
  r0 : t.r0 = s.r0
  r1 : t.r1 = s.r1
  codec : s.codec.wf = true → t.codec.wf = true

/-- A plan step completes and leaves the rest of the block alone, or RegisterAccess fails it and it aborts. -/
theorem perform_frame (f : Flight) (p : PlanStep) (s : State) :
    (∃ g t, perform f p s = stepDone g t ∧ StepCompletes f p s g t ∧ StepFrame s t) ∨
    (∃ l t, answerAt s 0 = .fails l ∧ perform f p s = abort t ∧ t.seqPc = s.seqPc ∧
      (s.codec.wf = true → t.codec.wf = true)) := by
  rcases perform_cases f p s with ⟨ms, rfl, h⟩ | ⟨a, o, rfl, -, h⟩ | ⟨a, v, o, hp, -, h⟩ | ⟨l, -, hl, h⟩
  · exact .inl ⟨_, _, h, ⟨rfl, rfl, rfl, rfl, Nat.le_succ _, .dl ms, rfl, rfl⟩, rfl, rfl, rfl, rfl, rfl, id⟩
  · exact .inl ⟨_, _, h, ⟨rfl, rfl, rfl, rfl, Nat.le_refl _, .rd a _, ⟨_, rfl⟩, rfl⟩, rfl, rfl, rfl, rfl, rfl, id⟩
  · have hmatch : matchesStep p (.wr a v) := by
      rcases hp with rfl | ⟨pm, nb, rfl, rfl⟩
      · rfl
      · exact ⟨f.t, rfl⟩
    exact .inl ⟨_, _, h, ⟨rfl, rfl, rfl, rfl, Nat.le_refl _, .wr a v, hmatch, rfl⟩, rfl, rfl, rfl, rfl, rfl,
      fun hwf => Memory.wf_take hwf s.cfg.cap a v⟩
  · refine .inr ⟨l, _, hl, h, rfl, fun hwf => ?_⟩
    dsimp only
    split
    · exact Memory.wf_writeAll hwf l
    · exact hwf

/-- A completed plan step keeps the invariant, whether the plan goes on or the command completes. -/
theorem inv_stepDone {s t : State} {f g : Flight} {p : PlanStep} (hinv : BlockInv s = true) (hf : s.flight = some f)
    (hdone : StepCompletes f p s g t) (hframe : StepFrame s t) : BlockInv (stepDone g t) = true := by
  have hflight : FlightInv s f := flightInv_of_inv hinv hf
  have hwf : t.codec.wf = true := hframe.codec (codec_wf_of_inv hinv)
  have hpc : (t.seqPc + 1).toNat = s.seqPc.toNat + 1 := by
    rw [hdone.seqPc, toNat_seqPc_add_one_of_lt hflight.seqPc (plan_length_le_of_inv hinv hf)]
  have hle : (t.seqPc + 1).toNat ≤ longestPlan := by
    rw [hpc]
    exact Nat.le_trans hflight.seqPc (plan_length_le_of_inv hinv hf)
  have hmoves : planMoves t.st g.dest = true := by
    rw [hframe.st, hdone.dest]
    exact hflight.moves
  rcases stepDone_cases g t with ⟨hmore, hnext⟩ | ⟨-, hend⟩
  · rw [hnext]
    obtain ⟨e, -, htrace⟩ := hdone.trace
    refine (inv_flight rfl).mpr ⟨hwf, hle, flightOk_iff.mpr ?_⟩
    exact {
      cap := by simpa only [hframe.cfg] using hflight.cap
      plan := by simpa only [hframe.cfg, hdone.plan] using hflight.plan
      seqPc := hmore
      trace := by simp only [htrace, hpc, List.length_append, hflight.trace, List.length_singleton]
      response := hframe.response.trans hflight.response
      moves := hmoves
      r0 := hframe.r0.trans hflight.r0
      r1 := hframe.r1.trans hflight.r1 }
  · rw [hend]
    exact inv_endCommand (s := { t with seqPc := t.seqPc + 1, flight := some g, st := g.dest }) hwf hle
      (planMoves_dest_ne_shuttingDown hmoves) .ok

/-- A failed operation keeps it: the command has ended, in Reset. -/
theorem inv_abort {s : State} (hwf : s.codec.wf = true) (hpc : s.seqPc.toNat ≤ longestPlan) :
    BlockInv (abort s) = true :=
  (inv_idle (abort_flight s)).mpr ⟨hwf, hpc, by simp [idleOk, respSt_responseWord]⟩

/-- Under the invariant the counter names a step of the plan in flight. -/
theorem planStep_eq_perform {s : State} {f : Flight} (hinv : BlockInv s = true) (hf : s.flight = some f) :
    ∃ p, planStep f s = perform f p s :=
  ⟨_, planStep_of_get (List.getElem?_eq_getElem (seqPc_lt_of_inv hinv hf))⟩

theorem inv_planStep {s : State} {f : Flight} (hinv : BlockInv s = true) (hf : s.flight = some f) :
    BlockInv (planStep f s) = true := by
  obtain ⟨p, hp⟩ := planStep_eq_perform hinv hf
  rw [hp]
  rcases perform_frame f p s with ⟨g, t, h, hdone, hframe⟩ | ⟨l, t, -, h, hpc, hwf⟩ <;> rw [h]
  · exact inv_stepDone hinv hf hdone hframe
  · exact inv_abort (hwf (codec_wf_of_inv hinv)) (hpc ▸ seqPc_le_of_inv hinv)

/-- The destinations of the commands with an empty plan. -/
theorem startsPlan_nil_iff {i : Instr} {s : State} {during dest : SeqState} :
    StartsPlan i s during dest [] ↔ during = s.st ∧
      (dest = .clockConfigured ∧ s.st = .initialized ∨ dest = .reset ∧ i = .fault ∨ dest = .off ∧ i = .remove) := by
  simp [StartsPlan]

theorem startsPlan_iff_of_ne_nil {i : Instr} {s : State} {during dest : SeqState} {plan : List PlanStep}
    (hne : plan ≠ []) :
    StartsPlan i s during dest plan ↔ planMoves during dest = true ∧ planWf s.cfg.cap plan = true ∧
      (during = s.st ∨ during = .shuttingDown ∧ (s.st = .active ∨ s.st = .muted)) := by
  simp [StartsPlan, hne]

/-- Every meaning leaves the invariant behind it: the command has ended, or its plan stands at its first step. -/
theorem inv_exec {i : Instr} {s t : State} (hidle : Idle s) (hwf : s.codec.wf = true)
    (hpc : s.seqPc.toNat ≤ longestPlan) (hst : s.st ≠ .shuttingDown) (ht : exec i s = .next t) :
    BlockInv t = true := by
  rcases exec_next hidle ht with ⟨e, rfl⟩ | ⟨a, b, rfl⟩ | ⟨dest, rfl, hstarts⟩ |
    ⟨during, dest, plan, rfl, hcap, hne, hstarts⟩
  · exact inv_endCommand (s := { s.startCommand with r0 := 0, r1 := 0 }) hwf hpc hst e
  · exact inv_endCommand (s := { s.startCommand with r0 := a, r1 := b }) hwf hpc hst .ok
  · have hdest : dest ≠ .shuttingDown := by
      rcases (startsPlan_nil_iff.mp hstarts).2 with ⟨rfl, -⟩ | ⟨rfl, -⟩ | ⟨rfl, -⟩ <;> simp
    exact inv_endCommand (s := { s.startCommand with seqPc := 0, st := dest }) hwf (Nat.zero_le _) hdest .ok
  · obtain ⟨hmoves, hplan, -⟩ := (startsPlan_iff_of_ne_nil hne).mp hstarts
    refine (inv_flight rfl).mpr ⟨hwf, Nat.zero_le _, flightOk_iff.mpr ?_⟩
    exact {
      cap := hcap
      plan := hplan
      seqPc := List.length_pos_of_ne_nil hne
      trace := rfl
      response := rfl
      moves := hmoves
      r0 := rfl
      r1 := rfl }

/-- Settles O54: a reset and the end of a command leave an idle block, a plan step hands the invariant on, and a
meaning that starts a plan starts a well-formed one. -/
theorem stepKeepsTheInvariant : Obligations.StepKeepsTheInvariant := by
  intro s t hinv ht
  have hwf : s.codec.wf = true := codec_wf_of_inv hinv
  have hpc : s.seqPc.toNat ≤ longestPlan := seqPc_le_of_inv hinv
  rcases step_cases s with ⟨strap, after, rest, -, -, h⟩ | ⟨-, f, hf, h⟩ | ⟨hidle, cw, rest, i, -, -, h⟩ |
    ⟨hidle, cw, rest, e, -, -, h⟩ | ⟨-, -, h⟩ <;> rw [h] at ht
  case inl =>
    cases ht
    exact (inv_idle (hardwareReset_flight _ _)).mpr ⟨Memory.wf_unknown s.codec, Nat.zero_le _, by simp [idleOk]⟩
  case inr.inl =>
    cases ht
    exact inv_planStep hinv hf
  case inr.inr.inl =>
    exact inv_exec (s := accept cw rest s) hidle hwf hpc (idleOk_of_inv hinv hidle).1 ht
  case inr.inr.inr.inl =>
    cases ht
    exact inv_endCommand (s := { (accept cw rest s).startCommand with r0 := 0, r1 := 0 }) hwf hpc
      (idleOk_of_inv hinv hidle).1 .illegalCommand
  case inr.inr.inr.inr =>
    cases ht
    exact hinv

/-- Only ShuttingDown has the code 6 (R21). -/
theorem seqStateCode_eq_six_iff {st : SeqState} : seqStateCode st = 6 ↔ st = .shuttingDown := by
  cases st <;> decide

/-- Settles O59: a response stands on an idle block only, and the invariant, which the step keeps, says what it carries
there. -/
theorem noResponseCarriesShuttingDown : Obligations.NoResponseCarriesShuttingDown := by
  intro s t w hinv ht hw
  have hinv' : BlockInv t = true := stepKeepsTheInvariant s t hinv ht
  cases hf : t.flight with
  | none =>
    obtain ⟨hst, hresponse⟩ := idleOk_of_inv hinv' hf
    rw [hresponse w hw]
    exact ⟨fun hsix => hst (seqStateCode_eq_six_iff.mp hsix), rfl⟩
  | some f =>
    have hnone : t.response = none := (flightInv_of_inv hinv' hf).response
    cases hnone.symm.trans hw

/-! ### What `st` can do -/

/-- The rows of the transition table, SHUTDOWN's through ShuttingDown (R120). -/
def tableRows : List (SeqState × SeqState) :=
  [(.reset, .initialized), (.initialized, .clockConfigured), (.clockConfigured, .formatConfigured),
    (.formatConfigured, .active), (.active, .muted), (.muted, .active), (.active, .shuttingDown),
    (.muted, .shuttingDown), (.shuttingDown, .off)]

theorem mem_tableRows_of_planMoves {st dest : SeqState} (h : planMoves st dest = true) : (st, dest) ∈ tableRows := by
  cases st <;> cases dest <;> simp [planMoves, tableRows] at h ⊢

/-- A plan step leaves `st`, or completes the command in its To state, or RegisterAccess fails it and `st` is Reset. -/
theorem perform_st (f : Flight) (p : PlanStep) (s : State) :
    (perform f p s).st = s.st ∨ (perform f p s).st = f.dest ∨
      ((perform f p s).st = .reset ∧ ∃ l, answerAt s 0 = .fails l) := by
  rcases perform_frame f p s with ⟨g, t, h, hdone, hframe⟩ | ⟨l, t, hl, h, -⟩ <;> rw [h]
  · rcases stepDone_cases g t with ⟨-, hnext⟩ | ⟨-, hend⟩
    · exact .inl (by rw [hnext]; exact hframe.st)
    · exact .inr (.inl (by rw [hend, complete_st, hdone.dest]))
  · exact .inr (.inr ⟨abort_st t, l, hl⟩)

/-- A meaning leaves `st`, or takes it along a row of the table, or is FAULT's or REMOVE's. -/
theorem exec_st {i : Instr} {s t : State} (hidle : Idle s) (ht : exec i s = .next t) :
    t.st = s.st ∨ (s.st, t.st) ∈ tableRows ∨ (t.st = .reset ∧ i = .fault) ∨ (t.st = .off ∧ i = .remove) := by
  rcases exec_next hidle ht with ⟨e, rfl⟩ | ⟨a, b, rfl⟩ | ⟨dest, rfl, hstarts⟩ |
    ⟨during, dest, plan, rfl, -, hne, hstarts⟩
  · exact .inl rfl
  · exact .inl rfl
  · rcases (startsPlan_nil_iff.mp hstarts).2 with ⟨rfl, hst⟩ | ⟨rfl, hi⟩ | ⟨rfl, hi⟩
    · exact .inr (.inl (by simp [hst, tableRows]))
    · exact .inr (.inr (.inl ⟨rfl, hi⟩))
    · exact .inr (.inr (.inr ⟨rfl, hi⟩))
  · obtain ⟨-, -, rfl | ⟨rfl, hst⟩⟩ := (startsPlan_iff_of_ne_nil hne).mp hstarts
    · exact .inl rfl
    · exact .inr (.inl (by rcases hst with hst | hst <;> simp [hst, tableRows]))

/-- The one word that decodes to a command is its encoding. -/
theorem eq_encode_of_decode {cw : CmdWord} {i : Instr} (h : decode cw = .ok i) : cw = encode i :=
  (encodeOfDecodeIsTheWord cw i h).2.symm

/-- Settles O57: a plan in flight ends in its To state or, failed, in Reset; of the meanings FAULT's and REMOVE's alone
leave the table, and each is presented as one word. -/
theorem sequencerMovesByTheTable : Obligations.SequencerMovesByTheTable := by
  intro s t hinv ht hne
  rcases step_cases s with ⟨strap, after, rest, hi, -, h⟩ | ⟨-, f, hf, h⟩ | ⟨hidle, cw, rest, i, hi, hd, h⟩ |
    ⟨-, cw, rest, e, -, -, h⟩ | ⟨-, -, h⟩ <;> rw [h] at ht
  case inl =>
    cases ht
    exact .inl ⟨rfl, .inr (.inr ⟨strap, after, rest, hi⟩)⟩
  case inr.inl =>
    obtain ⟨p, hp⟩ := planStep_eq_perform hinv hf
    rw [hp] at ht
    cases ht
    rcases perform_st f p s with hst | hst | ⟨hst, l, hl⟩
    · exact absurd hst hne
    · rw [hst]
      exact .inr (.inl (mem_tableRows_of_planMoves (flightInv_of_inv hinv hf).moves))
    · exact .inl ⟨hst, .inl ⟨l, by simp [hf], hl⟩⟩
  case inr.inr.inl =>
    rcases exec_st (s := accept cw rest s) hidle ht with hst | hrow | ⟨hst, rfl⟩ | ⟨hst, rfl⟩
    · exact absurd hst hne
    · exact .inr (.inl hrow)
    · cases eq_encode_of_decode hd
      exact .inl ⟨hst, .inr (.inl ⟨hidle, rest, hi⟩)⟩
    · cases eq_encode_of_decode hd
      exact .inr (.inr ⟨hst, hidle, rest, hi⟩)
  all_goals
    cases ht
    exact absurd rfl hne

/-- No plan runs in Off. -/
theorem idle_of_off {s : State} (hinv : BlockInv s = true) (hoff : s.st = .off) : Idle s := by
  cases hf : s.flight with
  | none => exact hf
  | some f =>
    have hmoves := (flightInv_of_inv hinv hf).moves
    rw [hoff] at hmoves
    cases hmoves

theorem off_notMem_tableRows (st : SeqState) : (.off, st) ∉ tableRows := by
  simp [tableRows]

/-- Settles O58: in Off no command is in flight, and no row of the table starts there. -/
theorem onlyFaultOrHardwareResetLeavesOff : Obligations.OnlyFaultOrHardwareResetLeavesOff := by
  intro s t hinv hoff ht hne
  have hidle : Idle s := idle_of_off hinv hoff
  rcases sequencerMovesByTheTable s t hinv ht (by rwa [hoff]) with
    ⟨hst, ⟨l, hflight, -⟩ | ⟨-, rest, hi⟩ | ⟨strap, after, rest, hi⟩⟩ | hrow | ⟨hst, -⟩
  · exact absurd hidle hflight
  · exact ⟨hst, hidle, rest, .inl hi⟩
  · exact ⟨hst, hidle, rest, .inr ⟨strap, after, hi⟩⟩
  · rw [hoff] at hrow
    exact absurd hrow (off_notMem_tableRows t.st)
  · exact absurd hst hne

end Sys2Proof.Machine

/-! The commands that end at once (42_codec_sequencer.md R123, R134, R152, R154): the pure ones, whose answer is a
function of the parameters and the operands alone, and those with an empty plan. -/

namespace Sys2Proof.Machine

/-! ### The pure commands -/

/-- What a pure command answers: its status and both result latches; none for a sequencer command. -/
def pureAnswer (p : Params) : Instr → Option (Status × Word32 × Word32)
  | .solve src tgt =>
    match solve p src tgt with
    | some d => some (.ok, pllDivWord d, 0)
    | none => some (.unsupportedRatio, 0, 0)
  | .lookup rate =>
    some (.ok, (BitVec.ofNat 4 (lookup p rate).row).setWidth 32, BitVec.ofNat 32 (lookup p rate).targetHz)
  | .negotiate role =>
    match roleOf role with
    | some r => some (.ok, rolePairWord (negotiate r), 0)
    | none => some (.illegalCommand, 0, 0)
  | _ => none

/-- A pure command ends at once with its answer: it reads the parameters alone and writes no state. -/
theorem exec_of_pureAnswer {s : State} (hidle : Idle s) {i : Instr} {e : Status} {r0 r1 : Word32}
    (h : pureAnswer s.cfg.toParams i = some (e, r0, r1)) :
    exec i s = .next ({ s.startCommand with r0, r1 }.endCommand e) := by
  cases i with
  | solve src tgt =>
    simp only [exec, execSolve, whenIdle_idle hidle, State.startCommand_cfg]
    cases hd : solve s.cfg.toParams src tgt with
    | some d =>
      simp only [pureAnswer, hd] at h
      cases h
      rfl
    | none =>
      simp only [pureAnswer, hd] at h
      cases h
      rfl
  | lookup rate =>
    simp only [exec, execLookup, whenIdle_idle hidle, State.startCommand_cfg]
    cases h
    rfl
  | negotiate role =>
    simp only [exec, execNegotiate, whenIdle_idle hidle]
    cases hr : roleOf role with
    | some r =>
      simp only [pureAnswer, hr] at h
      cases h
      rfl
    | none =>
      simp only [pureAnswer, hr] at h
      cases h
      rfl
  | init | cfgclk | cfgfmt | activate | mute | unmute | shutdown | fault | remove => cases h

/-- Every pure command has an answer, and its status is not one that a sequencer command alone can end with (R99). -/
theorem pureAnswer_status {i : Instr} (p : Params)
    (hi : (∃ a b, i = .solve a b) ∨ (∃ a, i = .lookup a) ∨ ∃ r, i = .negotiate r) :
    ∃ e r0 r1, pureAnswer p i = some (e, r0, r1) ∧ statusCode e ≠ 3 ∧ statusCode e ≠ 4 := by
  rcases hi with ⟨src, tgt, rfl⟩ | ⟨rate, rfl⟩ | ⟨role, rfl⟩
  · cases hd : solve p src tgt with
    | some d => exact ⟨.ok, pllDivWord d, 0, by simp only [pureAnswer, hd], by decide, by decide⟩
    | none => exact ⟨.unsupportedRatio, 0, 0, by simp only [pureAnswer, hd], by decide, by decide⟩
  · exact ⟨.ok, _, _, rfl, by decide, by decide⟩
  · cases hr : roleOf role with
    | some r => exact ⟨.ok, rolePairWord (negotiate r), 0, by simp only [pureAnswer, hr], by decide, by decide⟩
    | none => exact ⟨.illegalCommand, 0, 0, by simp only [pureAnswer, hr], by decide, by decide⟩

/-- Settles O30: both blocks give the one answer their parameters have, and the ends of the two commands differ in what
the blocks held before. -/
theorem pureCommandsReadAndWriteNoState : Obligations.PureCommandsReadAndWriteNoState := by
  intro i s s' hi hidle hidle' hparams
  obtain ⟨e, r0, r1, hanswer, hbus, htransition⟩ := pureAnswer_status s.cfg.toParams hi
  have hexec := exec_of_pureAnswer hidle hanswer
  have hexec' := exec_of_pureAnswer hidle' (hparams ▸ hanswer)
  refine ⟨_, _, _, _, hexec, hexec', rfl, rfl, rfl, rfl, rfl, rfl, rfl, ?_⟩
  simp only [respStatus_responseWord, respResults_responseWord]
  exact ⟨trivial, trivial, hbus, htransition⟩

/-! ### The commands with an empty plan -/

theorem startPlan_nil_startCommand (during dest : SeqState) (s : State) :
    startPlan during dest [] s.startCommand = .next (ended s .ok dest 0 0 []) :=
  startPlan_nil during dest s.startCommand

theorem exec_fault {s : State} (hidle : Idle s) : exec .fault s = .next (ended s .ok .reset 0 0 []) := by
  simp only [exec, execFault, whenIdle_idle hidle, ifLegal_legal (c := .fault) rfl, startPlan_nil_startCommand]

theorem exec_remove {s : State} (hidle : Idle s) : exec .remove s = .next (ended s .ok .off 0 0 []) := by
  simp only [exec, execRemove, whenIdle_idle hidle, ifLegal_legal (c := .remove) rfl, startPlan_nil_startCommand]

/-- Settles O41: REMOVE is legal in every state and its plan is empty. -/
theorem removeGoesToOff : Obligations.RemoveGoesToOff :=
  ⟨decodeOfEncodeIsTheCommand .remove rfl, fun _ hidle => exec_remove hidle⟩

/-- An operation that RegisterAccess fails sends `st` to Reset (R188). -/
theorem perform_st_of_fails {f : Flight} {p : PlanStep} {s : State} {changed : List (Addr × Word16)}
    (hp : isRegisterOp p = true) (hfails : answerAt s 0 = .fails changed) : (perform f p s).st = .reset := by
  rcases perform_cases f p s with ⟨ms, rfl, -⟩ | ⟨a, o, -, ho, -⟩ | ⟨a, v, o, -, ho, -⟩ | ⟨l, -, -, h⟩
  · cases hp
  · cases hfails.symm.trans ho
  · cases hfails.symm.trans ho
  · rw [h, abort_st]

/-- Settles O40: FAULT is legal in every state and its plan is empty; no row of the table leaves Off, and REMOVE stays
there. -/
theorem faultReturnsToReset : Obligations.FaultReturnsToReset := by
  refine ⟨decodeOfEncodeIsTheCommand .fault rfl, fun s hidle => exec_fault hidle, ?_, ?_⟩
  · intro i s t hidle hoff ht hne
    rcases exec_st hidle ht with hst | hrow | ⟨-, hi⟩ | ⟨hst, -⟩
    · exact absurd (hst.trans hoff) hne
    · rw [hoff] at hrow
      exact absurd hrow (off_notMem_tableRows t.st)
    · exact hi
    · exact absurd hst hne
  · intro s f p changed hf hp hop hr hfails
    exact ⟨_, step_perform hf hp hr, perform_st_of_fails hop hfails⟩

end Sys2Proof.Machine

/-! The commands that run a plan (42_codec_sequencer.md R130 to R149).  Each passes its checks and starts its plan
(`exec_<command>`); started under a well-formed `CAP`, with every operation completing, it ends as its events say. -/

namespace Sys2Proof.Machine

/-! ### A plan from its start to its end -/

/-- A command that starts a plan with a step under a well-formed `CAP` stands at the plan's first step; with every
operation completing it ends in its To state, its trace the plan's events. -/
theorem plan_runs {s : State} {i : Instr} {during dest : SeqState} {plan : List PlanStep} {tr : List Event}
    (hexec : exec i s = startPlan during dest plan s.startCommand) (hcap : capWf s.cfg = true) (hne : plan ≠ [])
    (hlen : plan.length ≤ longestPlan) (htr : planEvents s 0 0 s.codec plan = tr) :
    exec i s = .next (started s during dest plan) ∧
      (NoReset s → BusCompletes (countOps plan) s →
        runCommand i s = .next (ended s .ok dest (BitVec.ofNat 8 plan.length) (countOps plan) tr)) := by
  have hstarted : exec i s = .next (started s during dest plan) := by
    rw [hexec, startPlan_wf hne (by rwa [State.startCommand_cfg])]
    rfl
  have hevents : planEvents (started s during dest plan) 0 0 s.codec plan = tr :=
    (planEvents_congr (s := s) (t := started s during dest plan) 0 rfl (fun _ => rfl) plan 0 0 s.codec).trans htr
  refine ⟨hstarted, fun hr hb => ?_⟩
  rw [runCommand_started hstarted hne hlen hr hb, ← hevents]
  rfl

/-! ### INIT, MUTE, UNMUTE, ACTIVATE and SHUTDOWN -/

/-- A meaning that asks the state first goes on where the command is legal (R121 steps 1 to 3). -/
theorem whenIdle_ifLegal {s : State} {c : SeqCmd} (hidle : Idle s) (hlegal : legal c s.st = true)
    (k : State → Result) : whenIdle s (fun s => ifLegal c s k) = k s.startCommand := by
  rw [whenIdle_idle hidle, ifLegal_legal (by rwa [State.startCommand_st])]

theorem exec_init {s : State} (hidle : Idle s) (hst : s.st = .reset) :
    exec .init s = startPlan .reset .initialized (initPlan s.cfg.cap) s.startCommand := by
  rw [← hst]
  exact whenIdle_ifLegal hidle (by rw [hst]; rfl) _

theorem exec_mute {s : State} (hidle : Idle s) (hst : s.st = .active) :
    exec .mute s = startPlan .active .muted (mutePlan s.cfg.cap) s.startCommand := by
  rw [← hst]
  exact whenIdle_ifLegal hidle (by rw [hst]; rfl) _

theorem exec_unmute {s : State} (hidle : Idle s) (hst : s.st = .muted) :
    exec .unmute s = startPlan .muted .active (unmutePlan s.cfg.cap) s.startCommand := by
  rw [← hst]
  exact whenIdle_ifLegal hidle (by rw [hst]; rfl) _

theorem exec_activate {s : State} (hidle : Idle s) (hst : s.st = .formatConfigured) :
    exec .activate s = startPlan .formatConfigured .active (activatePlan s.cfg.cap) s.startCommand := by
  rw [← hst]
  exact whenIdle_ifLegal hidle (by rw [hst]; rfl) _

theorem exec_shutdown {s : State} (hidle : Idle s) (hst : s.st = .active ∨ s.st = .muted) :
    exec .shutdown s = startPlan .shuttingDown .off (shutdownPlan s.cfg.cap) s.startCommand := by
  exact whenIdle_ifLegal hidle (by rcases hst with hst | hst <;> rw [hst] <;> rfl) _

/-- Settles O31: the plan is the reset write and the delay, and its events are theirs. -/
theorem initResetsTheChipAndWaits : Obligations.InitResetsTheChipAndWaits := by
  intro s hidle hst hcap
  exact plan_runs (exec_init hidle hst) hcap (List.cons_ne_nil _ _) (by decide : 2 ≤ longestPlan) rfl

/-- Settles O37: the plan is the merge that sets the mute bits. -/
theorem muteSetsTheMuteBit : Obligations.MuteSetsTheMuteBit := by
  intro s hidle hst hcap c v
  exact plan_runs (exec_mute hidle hst) hcap (List.cons_ne_nil _ _) (by decide : 2 ≤ longestPlan) rfl

/-- Settles O38: the plan is the merge that clears the mute bits. -/
theorem unmuteClearsTheMuteBit : Obligations.UnmuteClearsTheMuteBit := by
  intro s hidle hst hcap c v
  refine plan_runs (exec_unmute hidle hst) hcap (List.cons_ne_nil _ _) (by decide : 2 ≤ longestPlan) ?_
  simp only [planEvents, BitVec.ofNat_eq_ofNat, BitVec.or_zero]
  rfl

/-- Settles O36: the plan sets three power domains, each with its delay, and clears the mute bits; each merge's event
carries what the read before it returned. -/
theorem activatePowersUpInOrder : Obligations.ActivatePowersUpInOrder := by
  intro s hidle hst hcap c v0 w0 m0 v1 w1 m1 v2 w2 m2 v3 w3
  refine plan_runs (exec_activate hidle hst) hcap (List.cons_ne_nil _ _) (by decide : 11 ≤ longestPlan) ?_
  simp only [planEvents, BitVec.ofNat_eq_ofNat, BitVec.or_zero]
  rfl

/-- Settles O39: the plan sets the mute bits, then clears the output stage's, then the core domains'. -/
theorem shutdownMutesThenPowersDown : Obligations.ShutdownMutesThenPowersDown := by
  intro s hidle hst hcap c v0 w0 m0 v1 w1 m1 v2 w2 m2 v3 w3
  refine plan_runs (exec_shutdown hidle hst) hcap (List.cons_ne_nil _ _) (by decide : 10 ≤ longestPlan) ?_
  simp only [planEvents, BitVec.ofNat_eq_ofNat, BitVec.or_zero]
  rfl

/-! ### CFGCLK -/

theorem legal_cfgclk_iff {st : SeqState} : legal .cfgclk st = true ↔ st = .initialized := by
  cases st <;> simp [legal]

section
variable {s : State} {role : BitVec 2} {r : Role} {width rate : Nat} {duplex : Bool}

/-- CFGCLK with valid operands in Initialized starts its plan (R132). -/
theorem exec_cfgclk_of_plan {plan : List PlanStep} (hidle : Idle s) (hst : s.st = .initialized)
    (hr : roleOf role = some r) (hw : validWidth s.cfg.cap width = true)
    (hplan : cfgclkPlan s.cfg r duplex rate = some plan) :
    exec (.cfgclk role width duplex rate) s = startPlan .initialized .clockConfigured plan s.startCommand := by
  have hlegal : legal .cfgclk s.startCommand.st = true := legal_cfgclk_iff.mpr hst
  simp only [exec, execCfgclk, whenIdle_idle hidle, hr, State.startCommand_cfg, hw, if_true, ifLegal_legal hlegal,
    hplan, State.startCommand_st, hst]

/-- CFGCLK with valid operands in Initialized and no plan raises UnsupportedRatio (R132). -/
theorem exec_cfgclk_of_no_plan (hidle : Idle s) (hst : s.st = .initialized) (hr : roleOf role = some r)
    (hw : validWidth s.cfg.cap width = true) (hplan : cfgclkPlan s.cfg r duplex rate = none) :
    exec (.cfgclk role width duplex rate) s = .next (rejected s .unsupportedRatio) := by
  have hlegal : legal .cfgclk s.startCommand.st = true := legal_cfgclk_iff.mpr hst
  simp only [exec, execCfgclk, whenIdle_idle hidle, hr, State.startCommand_cfg, hw, if_true, ifLegal_legal hlegal,
    hplan, raise_startCommand]

end

/-- The plan with the codec clock slave: the divider code of `DIV_SLAVE` (R132, R114). -/
theorem cfgclkPlan_slave (cfg : Config) (rate : Nat) :
    cfgclkPlan cfg .controllerIsMaster false rate =
      some [.write cfg.cap.addrClock ((divSlave cfg.cap cfg.mclkClass).getD (lookup cfg.toParams rate).row 0)] := rfl

/-- The plan with the codec clock master: the PLL's four steps and the divider code of `DIV_MASTER` (R132, R102). -/
theorem cfgclkPlan_master {cfg : Config} {rate : Nat} {d : PllDivision} (h : cfgclkSolve cfg rate = some d) :
    cfgclkPlan cfg .controllerIsSlave false rate =
      some [.read cfg.cap.addrPllCtrl,
        .writeMerged cfg.cap.addrPllCtrl cfg.cap.pllCtrlPreserve (place cfg.cap.pllCtrlPreserve d),
        .write cfg.cap.addrPllKHi (kHi d), .write cfg.cap.addrPllKLo (kLo d),
        .write cfg.cap.addrClock ((divMaster cfg.cap cfg.mclkClass).getD (lookup cfg.toParams rate).row 0)] := by
  simp only [cfgclkPlan, h]
  rfl

theorem cfgclkPlan_unsolved {cfg : Config} {rate : Nat} (h : cfgclkSolve cfg rate = none) :
    cfgclkPlan cfg .controllerIsSlave false rate = none := by
  simp only [cfgclkPlan, h]
  rfl

theorem cfgclkPlan_duplex (cfg : Config) (r : Role) (rate : Nat) : cfgclkPlan cfg r true rate = some [] := rfl

theorem kHi_eq_ofNat (d : PllDivision) : kHi d = BitVec.ofNat 16 (d.k.toNat / 65536) := by
  rw [← toNat_kHi, BitVec.ofNat_toNat, BitVec.setWidth_eq]

theorem kLo_eq_ofNat (d : PllDivision) : kLo d = BitVec.ofNat 16 (d.k.toNat % 65536) := by
  rw [← toNat_kLo, BitVec.ofNat_toNat, BitVec.setWidth_eq]

/-- Settles O33: with the controller driving the clock there is no PLL, and the plan is the one divider write. -/
theorem cfgclkSlaveWritesTheDividerOnly : Obligations.CfgclkSlaveWritesTheDividerOnly := by
  intro s width rate hidle hst hcap hw code
  exact plan_runs (exec_cfgclk_of_plan hidle hst rfl hw (cfgclkPlan_slave s.cfg rate)) hcap (List.cons_ne_nil _ _)
    (by decide : 1 ≤ longestPlan) rfl

/-- Settles O32: the plan is the PLL's merge and two fraction writes, then the divider write. -/
theorem cfgclkProgramsPllThenDivider : Obligations.CfgclkProgramsPllThenDivider := by
  intro s width rate d hidle hst hcap hw hsolve c nb hi lo code v
  have hplan := cfgclkPlan_master hsolve
  rw [kHi_eq_ofNat, kLo_eq_ofNat] at hplan
  exact plan_runs (exec_cfgclk_of_plan hidle hst rfl hw hplan) hcap (List.cons_ne_nil _ _)
    (by decide : 5 ≤ longestPlan) rfl

/-- Settles O44: without a division there is no plan, and the error is raised before anything is written. -/
theorem cfgclkSurfacesUnsupportedRatio : Obligations.CfgclkSurfacesUnsupportedRatio := by
  intro s width rate hidle hst hw hsolve
  exact exec_cfgclk_of_no_plan hidle hst rfl hw (cfgclkPlan_unsolved hsolve)

theorem roleOf_of_lt_two : ∀ role : BitVec 2, role.toNat < 2 → (roleOf role).isSome = true := by decide

/-- Settles O34: under the duplex guard the plan is empty, whatever the role, the rate and `CAP` are. -/
theorem duplexGuardSkipsTheClockStep : Obligations.DuplexGuardSkipsTheClockStep := by
  intro s role width rate hidle hst hrole hw
  obtain ⟨r, hr⟩ := Option.isSome_iff_exists.mp (roleOf_of_lt_two role hrole)
  rw [exec_cfgclk_of_plan hidle hst hr hw (cfgclkPlan_duplex s.cfg r rate), startPlan_nil_startCommand]

/-! ### CFGFMT -/

/-- CFGFMT in ClockConfigured with recognised selectors comes to its one write (R137). -/
theorem exec_cfgfmt {s : State} {role : BitVec 2} {width : Nat} {std pol : BitVec 3} {r : Role} {i : InterfaceStd}
    {p : Polarity} {w : Word16} (hidle : Idle s) (hst : s.st = .clockConfigured) (hr : roleOf role = some r)
    (hi : stdOf std = some i) (hp : polOf pol = some p) (hw : fmtWidthOf s.cfg.cap width = some w) :
    exec (.cfgfmt role width std pol) s =
      startPlan .clockConfigured .formatConfigured [.write s.cfg.cap.addrIface (fmtValue s.cfg.cap r i p w)]
        s.startCommand := by
  simp only [exec, execCfgfmt, whenIdle_idle hidle]
  rw [ifLegal_legal (by simp [hst, legal])]
  simp only [State.startCommand_cfg, State.startCommand_st, hst, cfgfmtValue, hr, hi, hp, hw, RegisterWrite.steps]

/-- Settles O35: the plan is the one write of the format value. -/
theorem cfgfmtWritesTheFormatValue : Obligations.CfgfmtWritesTheFormatValue := by
  intro s role width std pol r i p w hidle hst hcap hr hi hp hw v
  have hv : fmtValue s.cfg.cap r i p w = v := by
    cases r <;> simp only [fmtValue, v, reduceCtorEq, if_true, if_false, BitVec.or_assoc, BitVec.or_comm w]
  have hexec := exec_cfgfmt hidle hst hr hi hp hw
  rw [hv] at hexec
  exact plan_runs hexec hcap (List.cons_ne_nil _ _) (by decide : 1 ≤ longestPlan) rfl

end Sys2Proof.Machine

/-! The PLL request of CFGCLK on this hardware (42_codec_sequencer.md R133, R135): of the two master clocks and the two
targets each pair has a division, so that CFGCLK never ends with UnsupportedRatio. -/

namespace Sys2Proof.Machine

/-- The PLL request is the master clock to twice the target internal clock (R133). -/
theorem cfgclkSolve_instanceOf (cls : MclkClass) (cap : Cap) (rate : Nat) :
    cfgclkSolve (instanceOf cls cap) rate =
      solve thisHardware (mclkHz (instanceOf cls cap)) (2 * (lookup thisHardware rate).targetHz) := rfl

/-- `solve` on the two master clocks and twice the two targets (R133). -/
theorem solve_of_requests :
    solve thisHardware 12000000 (2 * 11289600) = some ⟨false, 7, 0x86C227⟩ ∧
    solve thisHardware 12288000 (2 * 11289600) = some ⟨false, 7, 0x59999A⟩ ∧
    solve thisHardware 12000000 (2 * 12288000) = some ⟨false, 8, 0x3126E9⟩ ∧
    solve thisHardware 12288000 (2 * 12288000) = some ⟨false, 8, 0x000000⟩ := by decide

/-- Settles O46: the request names one of four pairs, by the class and the target. -/
theorem pllRequestsOfThisHardware : Obligations.PllRequestsOfThisHardware := by
  obtain ⟨h12M44k1, h12M288_44k1, h12M48k, h12M288_48k⟩ := solve_of_requests
  refine ⟨cfgclkSolve_instanceOf, fun cap rate => ?_⟩
  obtain ⟨htarget, -⟩ := lookup_cases thisHardware rate
  refine ⟨htarget, fun h => ?_, fun h => ?_⟩ <;> rw [cfgclkSolve_instanceOf, cfgclkSolve_instanceOf, h]
  · exact ⟨h12M44k1, h12M288_44k1⟩
  · exact ⟨h12M48k, h12M288_48k⟩

theorem cfgclkSolve_instanceOf_ne_none (cls : MclkClass) (cap : Cap) (rate : Nat) :
    cfgclkSolve (instanceOf cls cap) rate ≠ none := by
  obtain ⟨-, hresults⟩ := pllRequestsOfThisHardware
  obtain ⟨htarget, h44k1, h48k⟩ := hresults cap rate
  rcases htarget with ht | ht
  · obtain ⟨h12M, h12M288⟩ := h44k1 ht
    cases cls <;> simp [h12M, h12M288]
  · obtain ⟨h12M, h12M288⟩ := h48k ht
    cases cls <;> simp [h12M, h12M288]

/-- A plan that starts answers at once with OK, being empty, or has no response yet. -/
theorem respStatus_of_startPlan {during dest : SeqState} {plan : List PlanStep} {s t : State} {w : RespWord}
    (hs : s.response = none) (ht : startPlan during dest plan s = .next t) (hw : t.response = some w) :
    respStatus w = statusCode .ok := by
  by_cases hne : plan = []
  · subst hne
    rw [startPlan_nil] at ht
    cases ht
    cases hw
    exact respStatus_responseWord _ _ _ _ _
  · cases hcap : capWf s.cfg with
    | true =>
      rw [startPlan_wf hne hcap] at ht
      cases ht
      cases hs.symm.trans hw
    | false =>
      rw [startPlan_illFormed hne hcap] at ht
      cases ht

theorem respStatus_of_raise {e : Status} {s : State} {w : RespWord} (hw : (raise e s).response = some w) :
    respStatus w = statusCode e := by
  cases hw
  exact respStatus_responseWord _ _ _ _ _

theorem cfgclkPlan_ne_none {cfg : Config} {rate : Nat} (h : cfgclkSolve cfg rate ≠ none) (r : Role) (duplex : Bool) :
    ∃ plan, cfgclkPlan cfg r duplex rate = some plan := by
  obtain ⟨d, hd⟩ := Option.ne_none_iff_exists'.mp h
  cases duplex with
  | true => exact ⟨_, cfgclkPlan_duplex cfg r rate⟩
  | false =>
    cases r with
    | controllerIsMaster => exact ⟨_, cfgclkPlan_slave cfg rate⟩
    | controllerIsSlave => exact ⟨_, cfgclkPlan_master hd⟩

/-- Where its PLL request has a division, CFGCLK is rejected for its operands or its state, or starts a plan. -/
theorem exec_cfgclk_cases {s : State} (hidle : Idle s) {rate : Nat} (hsolve : cfgclkSolve s.cfg rate ≠ none)
    (role : BitVec 2) (width : Nat) (duplex : Bool) :
    exec (.cfgclk role width duplex rate) s = .next (raise .illegalCommand s.startCommand) ∨
    exec (.cfgclk role width duplex rate) s = .next (raise .illegalTransition s.startCommand) ∨
    ∃ plan, exec (.cfgclk role width duplex rate) s = startPlan .initialized .clockConfigured plan s.startCommand := by
  cases hr : roleOf role with
  | none => exact .inl (by simp only [exec, execCfgclk, whenIdle_idle hidle, hr])
  | some r =>
    cases hw : validWidth s.cfg.cap width with
    | false =>
      exact .inl (by simp only [exec, execCfgclk, whenIdle_idle hidle, hr, State.startCommand_cfg, hw,
        Bool.false_eq_true, if_false])
    | true =>
      by_cases hst : s.st = .initialized
      · obtain ⟨plan, hplan⟩ := cfgclkPlan_ne_none hsolve r duplex
        exact .inr (.inr ⟨plan, exec_cfgclk_of_plan hidle hst hr hw hplan⟩)
      · have hillegal : legal .cfgclk s.startCommand.st = false := by
          rwa [State.startCommand_st, ← Bool.not_eq_true, legal_cfgclk_iff]
        refine .inr (.inl ?_)
        simp only [exec, execCfgclk, whenIdle_idle hidle, hr, State.startCommand_cfg, hw, if_true,
          ifLegal_illegal hillegal]

/-- Settles O47: the PLL request of this hardware always has a division. -/
theorem cfgclkNeverUnsupportedHere : Obligations.CfgclkNeverUnsupportedHere := by
  refine ⟨cfgclkSolve_instanceOf_ne_none, ?_⟩
  intro s t cls cap role width duplex rate w hidle hcfg ht hw
  have hsolve : cfgclkSolve s.cfg rate ≠ none := hcfg ▸ cfgclkSolve_instanceOf_ne_none cls cap rate
  rcases exec_cfgclk_cases hidle hsolve role width duplex with h | h | ⟨plan, h⟩ <;> rw [h] at ht
  · cases ht
    rw [respStatus_of_raise hw]
    decide
  · cases ht
    rw [respStatus_of_raise hw]
    decide
  · rw [respStatus_of_startPlan rfl ht hw]
    decide

end Sys2Proof.Machine

/-! The format value (42_codec_sequencer.md R138).  Under a well-formed `CAP` the four selectors use disjoint bits, so
masking the format value with the bits of one selector gives that selector's pattern back. -/

namespace Sys2Proof.Machine

/-! ### Patterns within the bits of their selector -/

/-- Every bit of the pattern is one of the mask's. -/
def Within (v mask : Word16) : Prop := v &&& mask = v

theorem within_self (v : Word16) : Within v v := BitVec.and_self

theorem within_zero (mask : Word16) : Within 0 mask := BitVec.zero_and

theorem Within.or_left {v mask : Word16} (h : Within v mask) (other : Word16) : Within v (other ||| mask) := by
  rw [Within] at h ⊢
  rw [← h]
  ext j hj
  simp only [BitVec.getElem_and, BitVec.getElem_or]
  cases v[j] <;> cases mask[j] <;> simp

theorem Within.or_right {v mask : Word16} (h : Within v mask) (other : Word16) : Within v (mask ||| other) := by
  rw [BitVec.or_comm]
  exact h.or_left other

/-- A pattern within one of two disjoint masks has no bit of the other. -/
theorem Within.and_eq_zero {v mask other : Word16} (h : Within v mask) (hdisjoint : mask &&& other = 0) :
    v &&& other = 0 := by
  rw [← h, BitVec.and_assoc, hdisjoint]
  exact BitVec.and_zero

theorem fmtStd_within (c : Cap) (i : InterfaceStd) : Within (fmtStd c i) (stdBits c) := by
  cases i with
  | dspB => exact (within_self _).or_left _
  | dspA => exact ((within_self _).or_left _).or_right _
  | rightJustified => exact (((within_self _).or_left _).or_right _).or_right _
  | leftJustified => exact ((((within_self _).or_left _).or_right _).or_right _).or_right _
  | i2s => exact ((((within_self _).or_right _).or_right _).or_right _).or_right _

theorem fmtPol_within (c : Cap) (p : Polarity) : Within (fmtPol c p) (polBits c) := by
  cases p with
  | frameInverted => exact (within_self _).or_left _
  | bitClockInverted => exact ((within_self _).or_left _).or_right _
  | bothInverted => exact (((within_self _).or_left _).or_right _).or_right _
  | normal => exact (((within_self _).or_right _).or_right _).or_right _

/-- The pattern of the clock role: `FMT_MS` where the codec is clock master. -/
def fmtRole (c : Cap) (r : Role) : Word16 := if r = .controllerIsSlave then c.fmtMs else 0

theorem fmtRole_within (c : Cap) (r : Role) : Within (fmtRole c r) c.fmtMs := by
  cases r with
  | controllerIsMaster => exact within_zero _
  | controllerIsSlave => exact within_self _

theorem fmtWidthOf_within {c : Cap} {width : Nat} {w : Word16} (h : fmtWidthOf c width = some w) :
    Within w (widthBits c) := by
  unfold fmtWidthOf at h
  unfold widthBits
  generalize c.fmtWidth = entries at h ⊢
  induction entries with
  | nil => cases h
  | cons entry rest ih =>
    obtain ⟨key, pattern⟩ := entry
    rw [List.foldr_cons]
    rw [List.lookup_cons] at h
    split at h
    · cases h
      exact (within_self _).or_right _
    · exact (ih h).or_left _

/-! ### The selectors of a well-formed `CAP` -/

theorem oneBit_ne_zero {v : Word16} (h : oneBit v = true) : v ≠ 0 := by
  simp only [oneBit, List.any_eq_true, List.mem_range, decide_eq_true_eq] at h
  obtain ⟨i, hi, rfl⟩ := h
  revert i
  decide

/-- What `selectorsWf` asks, by name. -/
structure SelectorsApart (c : Cap) : Prop where
  ms : c.fmtMs ≠ 0
  stdPol : stdBits c &&& polBits c = 0
  stdMs : stdBits c &&& c.fmtMs = 0
  stdWidth : stdBits c &&& widthBits c = 0
  polMs : polBits c &&& c.fmtMs = 0
  polWidth : polBits c &&& widthBits c = 0
  msWidth : c.fmtMs &&& widthBits c = 0

theorem patternsWf_of_capWf {cfg : Config} (h : capWf cfg = true) :
    stdPatternsWf cfg.cap = true ∧ polPatternsWf cfg.cap = true ∧ selectorsWf cfg.cap = true := by
  simp only [capWf, Bool.and_eq_true] at h
  obtain ⟨⟨⟨⟨⟨⟨⟨⟨-, hstd⟩, hpol⟩, hselectors⟩, -⟩, -⟩, -⟩, -⟩, -⟩ := h
  exact ⟨hstd, hpol, hselectors⟩

theorem selectorsApart_of_selectorsWf {c : Cap} (h : selectorsWf c = true) : SelectorsApart c := by
  simp only [selectorsWf, disjoint, Bool.and_eq_true, decide_eq_true_eq] at h
  obtain ⟨⟨⟨⟨⟨⟨hms, hstdPol⟩, hstdMs⟩, hstdWidth⟩, hpolMs⟩, hpolWidth⟩, hmsWidth⟩ := h
  exact ⟨oneBit_ne_zero hms, hstdPol, hstdMs, hstdWidth, hpolMs, hpolWidth, hmsWidth⟩

theorem and_eq_zero_symm {v w : Word16} (h : v &&& w = 0) : w &&& v = 0 := BitVec.and_comm .. ▸ h

/-! ### Each selector's pattern, read back from the format value -/

theorem fmtValue_eq (c : Cap) (r : Role) (i : InterfaceStd) (p : Polarity) (w : Word16) :
    fmtValue c r i p w = fmtStd c i ||| fmtPol c p ||| fmtRole c r ||| w := rfl

section
variable {c : Cap} (hapart : SelectorsApart c) (r : Role) (i : InterfaceStd) (p : Polarity) {width : Nat} {w : Word16}
  (hw : fmtWidthOf c width = some w)
include hapart hw

theorem fmtValue_and_stdBits : fmtValue c r i p w &&& stdBits c = fmtStd c i := by
  have hstd : fmtStd c i &&& stdBits c = fmtStd c i := fmtStd_within c i
  have hpol := (fmtPol_within c p).and_eq_zero (and_eq_zero_symm hapart.stdPol)
  have hrole := (fmtRole_within c r).and_eq_zero (and_eq_zero_symm hapart.stdMs)
  have hwidth := (fmtWidthOf_within hw).and_eq_zero (and_eq_zero_symm hapart.stdWidth)
  simp only [fmtValue_eq, BitVec.and_or_distrib_right, hstd, hpol, hrole, hwidth, BitVec.ofNat_eq_ofNat, BitVec.or_zero]

theorem fmtValue_and_polBits : fmtValue c r i p w &&& polBits c = fmtPol c p := by
  have hstd := (fmtStd_within c i).and_eq_zero hapart.stdPol
  have hpol : fmtPol c p &&& polBits c = fmtPol c p := fmtPol_within c p
  have hrole := (fmtRole_within c r).and_eq_zero (and_eq_zero_symm hapart.polMs)
  have hwidth := (fmtWidthOf_within hw).and_eq_zero (and_eq_zero_symm hapart.polWidth)
  simp only [fmtValue_eq, BitVec.and_or_distrib_right, hstd, hpol, hrole, hwidth, BitVec.ofNat_eq_ofNat, BitVec.or_zero,
    BitVec.zero_or]

theorem fmtValue_and_fmtMs : fmtValue c r i p w &&& c.fmtMs = fmtRole c r := by
  have hstd := (fmtStd_within c i).and_eq_zero hapart.stdMs
  have hpol := (fmtPol_within c p).and_eq_zero hapart.polMs
  have hrole : fmtRole c r &&& c.fmtMs = fmtRole c r := fmtRole_within c r
  have hwidth := (fmtWidthOf_within hw).and_eq_zero (and_eq_zero_symm hapart.msWidth)
  simp only [fmtValue_eq, BitVec.and_or_distrib_right, hstd, hpol, hrole, hwidth, BitVec.ofNat_eq_ofNat, BitVec.or_zero,
    BitVec.zero_or]

theorem fmtValue_and_widthBits : fmtValue c r i p w &&& widthBits c = w := by
  have hstd := (fmtStd_within c i).and_eq_zero hapart.stdWidth
  have hpol := (fmtPol_within c p).and_eq_zero hapart.polWidth
  have hrole := (fmtRole_within c r).and_eq_zero hapart.msWidth
  have hwidth : w &&& widthBits c = w := fmtWidthOf_within hw
  simp only [fmtValue_eq, BitVec.and_or_distrib_right, hstd, hpol, hrole, hwidth, BitVec.ofNat_eq_ofNat, BitVec.zero_or]

end

/-! ### Different selectors have different patterns -/

theorem fmtRole_injective {c : Cap} (hms : c.fmtMs ≠ 0) : Function.Injective (fmtRole c) := by
  intro r r' h
  cases r <;> cases r'
  · rfl
  · exact absurd h.symm hms
  · exact absurd h hms
  · rfl

theorem fmtPol_injective {c : Cap} (h : polPatternsWf c = true) : Function.Injective (fmtPol c) := by
  have hnodup : ([Polarity.normal, .bothInverted, .bitClockInverted, .frameInverted].map (fmtPol c)).Nodup :=
    of_decide_eq_true h
  intro p p'
  exact List.inj_on_of_nodup_map hnodup (by cases p <;> decide) (by cases p' <;> decide)

/-- DSP_B has a bit that none of the four other patterns has. -/
theorem fmtStd_injective {c : Cap} (h : stdPatternsWf c = true) : Function.Injective (fmtStd c) := by
  simp only [stdPatternsWf, disjoint, Bool.and_eq_true, decide_eq_true_eq] at h
  obtain ⟨⟨⟨⟨⟨⟨hnodup, hone⟩, -⟩, hi2s⟩, hleft⟩, hright⟩, hdspA⟩ := h
  have hextra : dspExtra c &&& c.fmtStdDspB = dspExtra c := by
    rw [dspExtra, BitVec.and_assoc, BitVec.and_comm (~~~c.fmtStdDspA), ← BitVec.and_assoc, BitVec.and_self]
  have hwithout : ∀ v ∈ [c.fmtStdI2S, c.fmtStdLeftJustified, c.fmtStdRightJustified, c.fmtStdDspA],
      dspExtra c &&& v = 0 := by
    simp only [List.forall_mem_cons, List.not_mem_nil, false_implies, implies_true, and_true]
    exact ⟨hi2s, hleft, hright, hdspA⟩
  have hall : ([InterfaceStd.i2s, .leftJustified, .rightJustified, .dspA, .dspB].map (fmtStd c)).Nodup :=
    hnodup.concat fun hmem => oneBit_ne_zero hone (hextra.symm.trans (hwithout _ hmem))
  intro i i'
  exact List.inj_on_of_nodup_map hall (by cases i <;> decide) (by cases i' <;> decide)

/-- Settles O52: each selector's pattern is read back from the format value, and patterns of one selector differ. -/
theorem formatValueIsInjective : Obligations.FormatValueIsInjective := by
  intro cfg r r' i i' p p' width width' w w' hcap hw hw' hvalue
  obtain ⟨hstd, hpol, hselectors⟩ := patternsWf_of_capWf hcap
  have hapart := selectorsApart_of_selectorsWf hselectors
  refine ⟨fmtRole_injective hapart.ms ?_, fmtStd_injective hstd ?_, fmtPol_injective hpol ?_, ?_⟩
  · rw [← fmtValue_and_fmtMs hapart r i p hw, hvalue, fmtValue_and_fmtMs hapart r' i' p' hw']
  · rw [← fmtValue_and_stdBits hapart r i p hw, hvalue, fmtValue_and_stdBits hapart r' i' p' hw']
  · rw [← fmtValue_and_polBits hapart r i p hw, hvalue, fmtValue_and_polBits hapart r' i' p' hw']
  · rw [← fmtValue_and_widthBits hapart r i p hw, hvalue, fmtValue_and_widthBits hapart r' i' p' hw']

end Sys2Proof.Machine

/-! NEGOTIATE (43_role_negotiator.md).  The two recognised roles give the two complementary pairs, so that one bit of
the result word says master and the other slave; the other two codes are rejected. -/

namespace Sys2Proof.Machine

/-! ### The pair (R170, R171) -/

/-- The pairs (master, master) and (slave, slave) are never returned (R171). -/
theorem negotiate_eq_or (r : Role) : negotiate r = (.master, .slave) ∨ negotiate r = (.slave, .master) := by
  cases r with
  | controllerIsMaster => exact .inl rfl
  | controllerIsSlave => exact .inr rfl

/-- Bit 0 of the result word is the controller's (R76). -/
theorem rolePairWord_getLsbD_zero (p : BusRole × BusRole) :
    (rolePairWord p).getLsbD 0 = decide (p.1 = .master) := by
  rw [rolePairWord, BitVec.getLsbD_append]
  cases p.1 <;> rfl

/-- Bit 1 of the result word is the codec's (R76). -/
theorem rolePairWord_getLsbD_one (p : BusRole × BusRole) :
    (rolePairWord p).getLsbD 1 = decide (p.2 = .master) := by
  rw [rolePairWord, BitVec.getLsbD_append, BitVec.getLsbD_append]
  cases p.2 <;> rfl

/-- Settles O29: of the two pairs that `negotiate` returns each has one master, and a bit of the result word is set
where its side is master. -/
theorem exactlyOneSideIsMaster : Obligations.ExactlyOneSideIsMaster := by
  refine ⟨fun r => ?_, rfl, rfl⟩
  rw [rolePairWord_getLsbD_zero, rolePairWord_getLsbD_one]
  rcases negotiate_eq_or r with h | h
  · rw [h]
    decide
  · rw [h]
    decide

/-! ### The command (R170) -/

theorem exec_negotiate_of_role {s : State} {role : BitVec 2} {r : Role} (hidle : Idle s) (hr : roleOf role = some r) :
    exec (.negotiate role) s = .next (answeredWith s (rolePairWord (negotiate r)) 0) := by
  simp only [exec, execNegotiate, whenIdle_idle hidle, hr, returnOk_startCommand]

theorem exec_negotiate_of_no_role {s : State} {role : BitVec 2} (hidle : Idle s) (hr : roleOf role = none) :
    exec (.negotiate role) s = .next (rejected s .illegalCommand) := by
  simp only [exec, execNegotiate, whenIdle_idle hidle, hr, raise_startCommand]

/-- Settles O28: codes 0 and 1 are the two roles, whose pairs make the words 1 and 2, and codes 2 and 3 are none. -/
theorem negotiateAnswersComplementaryRoles : Obligations.NegotiateAnswersComplementaryRoles := by
  intro s hidle
  have hmaster : rolePairWord (negotiate .controllerIsMaster) = 1 := by decide
  have hslave : rolePairWord (negotiate .controllerIsSlave) = 2 := by decide
  exact ⟨hmaster ▸ exec_negotiate_of_role hidle rfl, hslave ▸ exec_negotiate_of_role hidle rfl,
    exec_negotiate_of_no_role hidle rfl, exec_negotiate_of_no_role hidle rfl⟩

end Sys2Proof.Machine

/-! Errors (60_exceptions.md).  A failed register operation aborts; every other error is raised before the bus is
touched and leaves `rejected s e`; none of them stops the block. -/

namespace Sys2Proof.Machine

/-! ### No error stops the block (R190, R192, R198) -/

/-- Settles O8: with nothing presented there is no reset and no command to take. -/
theorem idleBlockHoldsItsState : Obligations.IdleBlockHoldsItsState := by
  intro s hidle hinputs
  exact step_nothing_presented hidle hinputs

/-- A plan under a well-formed `CAP` completes at once, being empty, or starts. -/
theorem startPlan_next {s : State} (hcap : capWf s.cfg = true) (during dest : SeqState) (plan : List PlanStep) :
    ∃ t, startPlan during dest plan s = .next t := by
  by_cases hne : plan = []
  · subst hne
    exact ⟨_, startPlan_nil during dest s⟩
  · exact ⟨_, startPlan_wf hne hcap during dest⟩

/-- The two refusals are a command in flight and an ill-formed `CAP`; without them every meaning has a next state. -/
theorem exec_next_of_capWf {s : State} (hidle : Idle s) (hcap : capWf s.cfg = true) (i : Instr) :
    ∃ t, exec i s = .next t := by
  rcases exec_cases i s hidle with ⟨e, h⟩ | ⟨a, b, h⟩ | ⟨dest, during, plan, h, -⟩
  · exact ⟨_, h⟩
  · exact ⟨_, h⟩
  · rw [h]
    exact startPlan_next (s := s.startCommand) hcap during dest plan

/-- Settles O12: of all a step can do, only running a meaning can be refused. -/
theorem noErrorStopsTheBlock : Obligations.NoErrorStopsTheBlock := by
  intro s hcap
  rcases step_cases s with ⟨strap, after, rest, -, -, h⟩ | ⟨-, f, -, h⟩ | ⟨hidle, cw, rest, i, -, -, h⟩ |
    ⟨-, cw, rest, e, -, -, h⟩ | ⟨-, -, h⟩
  · exact ⟨_, h⟩
  · exact ⟨_, h⟩
  · rw [h]
    exact exec_next_of_capWf (s := accept cw rest s) hidle hcap i
  · exact ⟨_, h⟩
  · exact ⟨_, h⟩

/-! ### A failed register operation (R188) -/

/-- A register operation that RegisterAccess fails aborts, and what a failed write changed stays in the codec. -/
theorem perform_of_fails {f : Flight} {p : PlanStep} {s : State} {changed : List (Addr × Word16)}
    (hop : isRegisterOp p = true) (hfails : answerAt s 0 = .fails changed) :
    perform f p s =
      abort { s.answered with codec := if (writtenAddr p).isSome then s.codec.writeAll changed else s.codec } := by
  rcases perform_cases f p s with ⟨ms, rfl, -⟩ | ⟨a, o, -, ho, -⟩ | ⟨a, v, o, -, ho, -⟩ | ⟨l, -, hl, h⟩
  · cases hop
  · cases hfails.symm.trans ho
  · cases hfails.symm.trans ho
  · cases hfails.symm.trans hl
    exact h

/-- Settles O17: the step performs the operation, and the abort is the whole of what it does. -/
theorem failedOperationAborts : Obligations.FailedOperationAborts := by
  intro s f p changed hf hp hop hr hfails
  rw [step_perform hf hp hr, perform_of_fails hop hfails, List.drop_one]
  rfl

/-! ### IllegalCommand (R185) -/

theorem rejectWord_accept (cw : CmdWord) (rest : List HostInput) (s : State) :
    rejectWord (accept cw rest s) = { rejected s .illegalCommand with inputs := rest } := rfl

theorem step_illegal_word {s : State} {cw : CmdWord} {rest : List HostInput} {e : DecodeError} (hidle : Idle s)
    (hi : s.inputs = .command cw :: rest) (hd : decode cw = .error e) :
    step s = .next { rejected s .illegalCommand with inputs := rest } := by
  rw [step_idle hidle (resetDue_command_presented hi), ← rejectWord_accept cw]
  simp only [takeCommand, hi, hd]

theorem roleOf_eq_none_of_two_le : ∀ role : BitVec 2, 2 ≤ role.toNat → roleOf role = none := by decide

theorem exec_cfgclk_of_no_role {s : State} {role : BitVec 2} (hidle : Idle s) (hr : roleOf role = none) (width : Nat)
    (duplex : Bool) (rate : Nat) :
    exec (.cfgclk role width duplex rate) s = .next (rejected s .illegalCommand) := by
  simp only [exec, execCfgclk, whenIdle_idle hidle, hr, raise_startCommand]

theorem exec_cfgclk_of_invalid_width {s : State} {width : Nat} (hidle : Idle s)
    (hw : validWidth s.cfg.cap width = false) (role : BitVec 2) (duplex : Bool) (rate : Nat) :
    exec (.cfgclk role width duplex rate) s = .next (rejected s .illegalCommand) := by
  cases hr : roleOf role with
  | none => exact exec_cfgclk_of_no_role hidle hr width duplex rate
  | some r =>
    simp only [exec, execCfgclk, whenIdle_idle hidle, hr, State.startCommand_cfg, hw, Bool.false_eq_true, if_false,
      raise_startCommand]

/-- Settles O7: the word that no row matches does not decode, and the two commands check their operands before the
state. -/
theorem illegalCommandsChangeNothing : Obligations.IllegalCommandsChangeNothing := by
  intro s hidle
  refine ⟨fun cw rest hi hnone => ?word, fun role hrole => ?negotiate, fun role width duplex rate hbad => ?cfgclk⟩
  case word =>
    obtain ⟨e, hd⟩ := no_opcodeRow_iff_decode_error.mp hnone
    exact step_illegal_word hidle hi hd
  case negotiate => exact exec_negotiate_of_no_role hidle (roleOf_eq_none_of_two_le role hrole)
  case cfgclk =>
    rcases hbad with hrole | hw
    · exact exec_cfgclk_of_no_role hidle (roleOf_eq_none_of_two_le role hrole) width duplex rate
    · exact exec_cfgclk_of_invalid_width hidle hw role duplex rate

/-! ### IllegalTransition (R122, R184) -/

/-- The From states of a command's rows in the transition table (R120). -/
def fromStates : SeqCmd → List SeqState
  | .init => [.reset]
  | .cfgclk => [.initialized]
  | .cfgfmt => [.clockConfigured]
  | .activate => [.formatConfigured]
  | .mute => [.active]
  | .unmute => [.muted]
  | .shutdown => [.active, .muted]
  | .fault | .remove =>
    [.reset, .initialized, .clockConfigured, .formatConfigured, .active, .muted, .shuttingDown, .off]

/-- The legality matrix of R122, entry by entry, against the rows of R120. -/
theorem legal_eq_decide_mem_fromStates (c : SeqCmd) (st : SeqState) : legal c st = decide (st ∈ fromStates c) := by
  cases c <;> cases st <;> rfl

theorem ifLegal_of_notMem_fromStates {c : SeqCmd} {s : State} (h : s.st ∉ fromStates c) (k : State → Result) :
    ifLegal c s.startCommand k = .next (rejected s .illegalTransition) := by
  rw [ifLegal_illegal (by simpa [legal_eq_decide_mem_fromStates] using h), raise_startCommand]

/-- A meaning that asks the state first goes no further where the table has no row. -/
theorem whenIdle_ifLegal_of_notMem_fromStates {c : SeqCmd} {s : State} (hidle : Idle s) (h : s.st ∉ fromStates c)
    (k : State → Result) : whenIdle s (fun s => ifLegal c s k) = .next (rejected s .illegalTransition) := by
  rw [whenIdle_idle hidle, ifLegal_of_notMem_fromStates h]

/-- CFGCLK asks the state once its operands have passed (R187). -/
theorem exec_cfgclk_of_illegal_state {s : State} {role : BitVec 2} {width : Nat} (hidle : Idle s)
    (hst : s.st ≠ .initialized) (hrole : role.toNat < 2) (hw : validWidth s.cfg.cap width = true) (duplex : Bool)
    (rate : Nat) : exec (.cfgclk role width duplex rate) s = .next (rejected s .illegalTransition) := by
  obtain ⟨r, hr⟩ := Option.isSome_iff_exists.mp (roleOf_of_lt_two role hrole)
  have hrow : s.st ∉ fromStates .cfgclk := by simpa [fromStates] using hst
  simp only [exec, execCfgclk, whenIdle_idle hidle, hr, State.startCommand_cfg, hw, if_true,
    ifLegal_of_notMem_fromStates hrow]

/-- Settles O42: outside the From states of its rows each command is stopped at its state check. -/
theorem unlistedPairsAreIllegalTransitions : Obligations.UnlistedPairsAreIllegalTransitions := by
  intro s hidle
  have hstop {c : SeqCmd} (h : s.st ∉ fromStates c) (k : State → Result) :=
    whenIdle_ifLegal_of_notMem_fromStates hidle h k
  refine ⟨fun hst => ?init, fun hst role width duplex rate hrole hw => ?cfgclk, fun hst role width std pol => ?cfgfmt,
    fun hst => ?activate, fun hst => ?mute, fun hst => ?unmute, fun hactive hmuted => ?shutdown⟩
  case init => exact hstop (c := .init) (by simpa [fromStates] using hst) _
  case cfgclk => exact exec_cfgclk_of_illegal_state hidle hst hrole hw duplex rate
  case cfgfmt => exact hstop (c := .cfgfmt) (by simpa [fromStates] using hst) _
  case activate => exact hstop (c := .activate) (by simpa [fromStates] using hst) _
  case mute => exact hstop (c := .mute) (by simpa [fromStates] using hst) _
  case unmute => exact hstop (c := .unmute) (by simpa [fromStates] using hst) _
  case shutdown => exact hstop (c := .shutdown) (by simpa [fromStates] using ⟨hactive, hmuted⟩) _

/-! ### InvalidFormatSelector (R139, R182) -/

theorem stdOf_eq_none_of_five_le : ∀ std : BitVec 3, 5 ≤ std.toNat → stdOf std = none := by decide

theorem polOf_eq_none_of_four_le : ∀ pol : BitVec 3, 4 ≤ pol.toNat → polOf pol = none := by decide

/-- One unrecognised selector is enough. -/
theorem cfgfmtValue_eq_none {c : Cap} {role : BitVec 2} {width : Nat} {std pol : BitVec 3}
    (h : roleOf role = none ∨ stdOf std = none ∨ polOf pol = none ∨ fmtWidthOf c width = none) :
    cfgfmtValue c role width std pol = none := by
  unfold cfgfmtValue
  split
  · simp_all
  · rfl

theorem exec_cfgfmt_of_no_value {s : State} {role : BitVec 2} {width : Nat} {std pol : BitVec 3} (hidle : Idle s)
    (hst : s.st = .clockConfigured) (hv : cfgfmtValue s.cfg.cap role width std pol = none) :
    exec (.cfgfmt role width std pol) s = .next (rejected s .invalidFormatSelector) := by
  simp only [exec, execCfgfmt, whenIdle_idle hidle]
  rw [ifLegal_legal (by simp [hst, legal])]
  simp only [State.startCommand_cfg, hv, raise_startCommand]

/-- Settles O45: each cause is one selector that stands for nothing. -/
theorem cfgfmtRejectsUnrecognisedSelectors : Obligations.CfgfmtRejectsUnrecognisedSelectors := by
  intro s role width std pol hidle hst hbad
  refine exec_cfgfmt_of_no_value hidle hst (cfgfmtValue_eq_none ?_)
  rcases hbad with h | h | h | h
  · exact .inl (roleOf_eq_none_of_two_le role h)
  · exact .inr (.inl (stdOf_eq_none_of_five_le std h))
  · exact .inr (.inr (.inl (polOf_eq_none_of_four_le pol h)))
  · exact .inr (.inr (.inr (Option.isNone_iff_eq_none.mp (by simpa [validWidth] using h))))

/-! ### The status-only errors (R189) -/

/-- A command whose response does not carry OK was rejected by its meaning. -/
theorem rejected_of_exec {i : Instr} {s t : State} {w : RespWord} (hidle : Idle s) (ht : exec i s = .next t)
    (hw : t.response = some w) (hne : respStatus w ≠ statusCode .ok) : ∃ e, t = rejected s e := by
  rcases exec_cases i s hidle with ⟨e, h⟩ | ⟨a, b, h⟩ | ⟨dest, during, plan, h, -⟩ <;> rw [h] at ht
  · cases ht
    exact ⟨e, rfl⟩
  · cases ht
    cases hw
    exact absurd (respStatus_responseWord _ _ _ _ _) hne
  · exact absurd (respStatus_of_startPlan rfl ht hw) hne

/-- A word whose response does not carry OK was rejected, by the decoder or by its command. -/
theorem rejected_of_step {s t : State} {cw : CmdWord} {rest : List HostInput} {w : RespWord} (hidle : Idle s)
    (hi : s.inputs = .command cw :: rest) (ht : step s = .next t) (hw : t.response = some w)
    (hne : respStatus w ≠ statusCode .ok) : ∃ e, t = { rejected s e with inputs := rest } := by
  cases hd : decode cw with
  | ok i =>
    rw [step_legal_word hidle hi hd] at ht
    exact rejected_of_exec (s := accept cw rest s) hidle ht hw hne
  | error e =>
    rw [step_illegal_word hidle hi hd] at ht
    cases ht
    exact ⟨.illegalCommand, rfl⟩

/-- Settles O43: none of the four statuses is OK, and a rejection writes the latches, the trace and the response
alone. -/
theorem statusOnlyErrorsWriteNoState : Obligations.StatusOnlyErrorsWriteNoState := by
  intro s t cw rest w hidle hi ht hw hstatus
  have hne : respStatus w ≠ statusCode .ok := by
    rcases hstatus with h | h | h | h <;> rw [h] <;> decide
  obtain ⟨e, rfl⟩ := rejected_of_step hidle hi ht hw hne
  cases hw
  exact ⟨rfl, rfl, rfl, rfl, rfl, rfl, respResults_responseWord _ _ _ _ _, rfl, rfl⟩

end Sys2Proof.Machine

/-! Hardware reset and the hazard of a second command (70_reset_and_hazards.md). -/

namespace Sys2Proof.Machine

/-- Settles O9: a reset that arrives, idle or between two plan steps, is `hardwareReset` on the rest of the inputs (R210,
R221), which forgets the codec's registers. -/
theorem hardwareResetSamplesTheStrap : Obligations.HardwareResetSamplesTheStrap := by
  intro s strap after rest hinputs harrives
  have hforgets (a : Addr) : (hardwareReset strap { s with inputs := rest }).codec.read? a = none := by
    rw [hardwareReset_codec, Memory.read?_unknown]
  exact ⟨hardwareReset strap { s with inputs := rest }, step_reset harrives hinputs, hardwareReset_st _ _,
    hardwareReset_seqPc _ _, hardwareReset_operands _ _, hardwareReset_r0 _ _, hardwareReset_r1 _ _,
    hardwareReset_flight _ _, hardwareReset_response _ _, hardwareReset_trace _ _, hardwareReset_cfg _ _,
    hardwareReset_answers _ _, hardwareReset_busOps _ _, hardwareReset_inputs _ _, hforgets⟩

/-- Settles O10: every meaning begins by asking that no command is in flight (R220). -/
theorem commandInFlightIsRefused : Obligations.CommandInFlightIsRefused := by
  intro i s f hflight
  exact exec_flight hflight i

end Sys2Proof.Machine
